-- ==== Sys2Proof/Word.lean ====
section
/-! DEFINITION. The machine word (rule R2 of 00_scope.md): 16 bits, unsigned. -/

namespace Sys2Proof

/-- One word: register, memory cell, stack entry, instruction word or argument (rule R2). -/
abbrev Word := BitVec 16

end Sys2Proof
end

