-- ==== Sys2Proof/Config.lean ====
section
/-! DEFINITION. The parameters of this hardware (00_scope.md section 4) and the one free value of the model. -/

namespace Sys2Proof.Config

/-- `MEM_WORDS` (rule R4): addresses run 0..32767. -/
@[simp] abbrev memWords : Nat := 32768

/-- `VALUE_MOD` (rule R5): results of arithmetic are reduced modulo this. -/
@[simp] abbrev valueMod : Nat := 32768

/-- `ARG_MAX` (rule R5): the highest legal raw argument word. -/
@[simp] abbrev argMax : Nat := 32775

/-- `PC_RESET` (rule R34, the spec's decision D1). DEDUCED; unsafe if the entry point differs (log entry 2). -/
@[simp] abbrev pcReset : Word := 0

/-- FREE VALUE (rule R214, spec decision D14, log entry 10). After an `in` whose line runs past cell 32767 the cells from
its start address on hold "either their old words or the first `32768 - a` words of the line, or any mixture".
`overrunTakesNew draw addr` says of the cell at `addr` whether the new word landed, at the draw-th such choice.
Safe: nothing constrains it. -/
opaque overrunTakesNew (draw addr : Nat) : Bool

end Sys2Proof.Config
end

