-- ==== Sys2Proof/Syntax.lean ====
section
/-! DEFINITION. The instructions: one constructor per row of spec/opcode_table.json (rule R82 of 30_encoding.md). -/

namespace Sys2Proof

/-- An argument word, classified as rule R83 classifies it. -/
inductive Arg where
  /-- A literal: the number itself. Well formed when bit 15 is clear. -/
  | lit (w : Word)
  /-- A register reference: register `k`. -/
  | reg (k : Fin 8)
deriving DecidableEq, Repr

/-- The 22 instructions. Arguments are raw (unresolved) and in encoding order; what an argument means is fixed by its role
(rule R84): `dest`, `src`, `waddr` (first of `wmem`), `mdest` (of `in`). -/
inductive Instr where
  | halt
  | set (a b : Arg)
  | push (a : Arg)
  | pop (a : Arg)
  | eq (a b c : Arg)
  | gt (a b c : Arg)
  | jmp (a : Arg)
  | jnz (a b : Arg)
  | jez (a b : Arg)
  | add (a b c : Arg)
  | mul (a b c : Arg)
  | mod (a b c : Arg)
  | and (a b c : Arg)
  | or (a b c : Arg)
  | not (a b : Arg)
  | rmem (a b : Arg)
  | wmem (a b : Arg)
  | call (a : Arg)
  | ret
  | out (a : Arg)
  /-- `in`, spelled `inp` because `in` is a word of Lean. -/
  | inp (a : Arg)
  | noop
deriving DecidableEq, Repr

/-- The arguments of an instruction in encoding order (rule R82, columns a, b, c). -/
def Instr.args : Instr → List Arg
  | .halt | .ret | .noop => []
  | .push a | .pop a | .jmp a | .call a | .out a | .inp a => [a]
  | .set a b | .jnz a b | .jez a b | .not a b | .rmem a b | .wmem a b => [a, b]
  | .eq a b c | .gt a b c | .add a b c | .mul a b c | .mod a b c | .and a b c | .or a b c => [a, b, c]

/-- The destination operand (role `dest` of rule R84), where the instruction has one. -/
def Instr.dest : Instr → Option Arg
  | .set a _ | .pop a | .eq a _ _ | .gt a _ _ | .add a _ _ | .mul a _ _ | .mod a _ _ | .and a _ _ | .or a _ _ | .not a _
  | .rmem a _ => some a
  | .halt | .push _ | .jmp _ | .jnz _ _ | .jez _ _ | .wmem _ _ | .call _ | .ret | .out _ | .inp _ | .noop => none

/-- The source operands (role `src` of rule R84). -/
def Instr.sources : Instr → List Arg
  | .halt | .ret | .noop | .pop _ | .inp _ => []
  | .push a | .jmp a | .call a | .out a => [a]
  | .set _ b | .not _ b | .rmem _ b | .wmem _ b => [b]
  | .jnz a b | .jez a b => [a, b]
  | .eq _ b c | .gt _ b c | .add _ b c | .mul _ b c | .mod _ b c | .and _ b c | .or _ b c => [b, c]

end Sys2Proof
end

