-- ==== Sys2Proof/WellFormed.lean ====
section
/-! DEFINITION. When an instruction is one the encoding can carry: every literal has bit 15 clear (rule R83). -/

namespace Sys2Proof

/-- A literal is 0..32767; a register reference is always legal (rules R83, R88). -/
def Arg.wf : Arg → Bool
  | .lit w => decide (w.toNat < Config.valueMod)
  | .reg _ => true

/-- Every argument is well formed. -/
def Instr.wf (i : Instr) : Bool := i.args.all Arg.wf

end Sys2Proof
end

