-- ==== Sys2Proof/Decode.lean ====
section
/-! DEFINITION. Decoding, total on any list of words and rejecting by name, and the encoder beside it (30_encoding.md). -/

namespace Sys2Proof

/-- Why a list of words is no instruction. -/
inductive DecodeError where
  /-- There is no opcode word to read. -/
  | noOpcode
  /-- The opcode word is not one of 0..21 (rule R86). -/
  | unknownOpcode (op : Word)
  /-- The words end before the last argument (rule R91); `args` are those that are there. -/
  | cutShort (op : Word) (args : List Word)
  /-- Some argument word is above 32775 (rule R87). -/
  | invalidArgument (op : Word) (args : List Word)
deriving DecidableEq, Repr

/-- What the decoder answers: an instruction with the words that follow it, or a rejection. -/
inductive Decoded where
  | instr (i : Instr) (rest : List Word)
  | reject (e : DecodeError)
deriving DecidableEq, Repr

/-- The word an argument denotes its class by (rule R83): literal or register reference, `w mod 8` (rule R22). For words up to 32775. -/
def toArg (w : Word) : Arg :=
  if w.toNat < Config.valueMod then .lit w else .reg ⟨w.toNat % 8, Nat.mod_lt _ (by decide)⟩

/-- The `n`-th argument (from 0) among the raw argument words. -/
def argAt (ws : List Word) (n : Nat) : Arg := toArg (ws.getD n 0)

/-- One row of the opcode table: how many arguments, and the instruction they make. -/
structure OpRow where
  arity : Nat
  build : List Word → Instr

/-- The opcode table of rule R82, by the whole opcode word (rule R81). -/
def opRow (op : Word) : Option OpRow :=
  match op.toNat with
  | 0 => some ⟨0, fun _ => .halt⟩
  | 1 => some ⟨2, fun ws => .set (argAt ws 0) (argAt ws 1)⟩
  | 2 => some ⟨1, fun ws => .push (argAt ws 0)⟩
  | 3 => some ⟨1, fun ws => .pop (argAt ws 0)⟩
  | 4 => some ⟨3, fun ws => .eq (argAt ws 0) (argAt ws 1) (argAt ws 2)⟩
  | 5 => some ⟨3, fun ws => .gt (argAt ws 0) (argAt ws 1) (argAt ws 2)⟩
  | 6 => some ⟨1, fun ws => .jmp (argAt ws 0)⟩
  | 7 => some ⟨2, fun ws => .jnz (argAt ws 0) (argAt ws 1)⟩
  | 8 => some ⟨2, fun ws => .jez (argAt ws 0) (argAt ws 1)⟩
  | 9 => some ⟨3, fun ws => .add (argAt ws 0) (argAt ws 1) (argAt ws 2)⟩
  | 10 => some ⟨3, fun ws => .mul (argAt ws 0) (argAt ws 1) (argAt ws 2)⟩
  | 11 => some ⟨3, fun ws => .mod (argAt ws 0) (argAt ws 1) (argAt ws 2)⟩
  | 12 => some ⟨3, fun ws => .and (argAt ws 0) (argAt ws 1) (argAt ws 2)⟩
  | 13 => some ⟨3, fun ws => .or (argAt ws 0) (argAt ws 1) (argAt ws 2)⟩
  | 14 => some ⟨2, fun ws => .not (argAt ws 0) (argAt ws 1)⟩
  | 15 => some ⟨2, fun ws => .rmem (argAt ws 0) (argAt ws 1)⟩
  | 16 => some ⟨2, fun ws => .wmem (argAt ws 0) (argAt ws 1)⟩
  | 17 => some ⟨1, fun ws => .call (argAt ws 0)⟩
  | 18 => some ⟨0, fun _ => .ret⟩
  | 19 => some ⟨1, fun ws => .out (argAt ws 0)⟩
  | 20 => some ⟨1, fun ws => .inp (argAt ws 0)⟩
  | 21 => some ⟨0, fun _ => .noop⟩
  | _ => none

/-- The positions, counted from `n`, of the argument words above 32775 (the set `bad` of rule R114). -/
def badArgsFrom (n : Nat) : List Word → List Nat
  | [] => []
  | w :: ws => if Config.argMax < w.toNat then n :: badArgsFrom (n + 1) ws else badArgsFrom (n + 1) ws

/-- The offending argument positions, the first argument being position 1 (rules R32, R114). -/
def badArgs (args : List Word) : List Nat := badArgsFrom 1 args

/-- Read one instruction from the front of a list of words (rules R80, R85): the opcode word decides how many argument words
follow; all of them are read before any is validated (rule R114). -/
def decode : List Word → Decoded
  | [] => .reject .noOpcode
  | op :: rest =>
    match opRow op with
    | none => .reject (.unknownOpcode op)
    | some row =>
      let args := rest.take row.arity
      if args.length < row.arity then .reject (.cutShort op args)
      else if badArgs args = [] then .instr (row.build args) (rest.drop row.arity)
      else .reject (.invalidArgument op args)

/-! ### The encoder -/

/-- The raw word of an argument (rule R94): a literal is itself, register `k` is 32768 + k. -/
def Arg.word : Arg → Word
  | .lit w => w
  | .reg k => BitVec.ofNat 16 (32768 + k.val)

/-- The opcode word (rule R82, column "opcode"). -/
def Instr.opcode : Instr → Word
  | .halt => 0
  | .set .. => 1
  | .push .. => 2
  | .pop .. => 3
  | .eq .. => 4
  | .gt .. => 5
  | .jmp .. => 6
  | .jnz .. => 7
  | .jez .. => 8
  | .add .. => 9
  | .mul .. => 10
  | .mod .. => 11
  | .and .. => 12
  | .or .. => 13
  | .not .. => 14
  | .rmem .. => 15
  | .wmem .. => 16
  | .call .. => 17
  | .ret => 18
  | .out .. => 19
  | .inp .. => 20
  | .noop => 21

/-- The words of an instruction: opcode word, then each argument's raw word (rules R80, R94). -/
def encode (i : Instr) : List Word := i.opcode :: i.args.map Arg.word

/-- The length of an instruction in words: 1 + arity (rule R85). -/
def Instr.len (i : Instr) : Nat := 1 + i.args.length

/-! ### The opcode table's numbering of bits -/

/-- The four words of a number whose bit 0 is the least significant bit of the first word. -/
def tableWords (nbits w : Nat) : List Word :=
  let v := w % 2 ^ nbits
  [BitVec.ofNat 16 v, BitVec.ofNat 16 (v / 2 ^ 16), BitVec.ofNat 16 (v / 2 ^ 32), BitVec.ofNat 16 (v / 2 ^ 48)]

/-- The instruction the decoder reads from `nbits` bits `w`, every bit above them being 0. -/
def decodeTableWord (nbits w : Nat) : Option Instr :=
  match decode (tableWords nbits w) with
  | .instr i _ => some i
  | .reject _ => none

end Sys2Proof
end

