-- ==== Sys2Proof/Machine/State.lean ====
section
/-! DEFINITION. The machine's state (10_state.md), as plain data, its state after reset, and the reasons a step can stop. -/

namespace Sys2Proof.Machine

/-- The five causes of a fatal error (rule R241). A MEANING never answers `Host.Outcome.fault`: it takes the fault, a next
state whose status is Faulted and whose record holds the cause (rule R247, log entry 4). `step` answers
`Host.Outcome.fault c` exactly on a machine that is already Faulted with cause `c`, since no step is performed there (rule
R31, log entry 5); safe. -/
inductive Fault where
  /-- Code 1. Raised by the common step: the opcode word is in 22..65535 (rule R242). Safe. -/
  | unknownOpcode
  /-- Code 2. Raised by the common step: an argument word is in 32776..65535 (rule R243). Safe. -/
  | invalidArgument
  /-- Code 3. Raised by a fetch, the data read of `rmem` and the writes of `in`: an address above 32767 (rule R244). Safe. -/
  | addressingError
  /-- Code 4. Raised by `pop` and `ret` on an empty stack (rule R245). Safe. -/
  | stackUnderflow
  /-- Code 5. Raised by `mod` with a zero divisor (rule R246). Safe. -/
  | divideByZero
deriving DecidableEq, Repr

/-- Why the model gives no meaning. -/
inductive Refusal where
  /-- An instruction with no meaning yet; raised by no arm of this model. Safe. -/
  | notModelled (mnemonic : String)
  /-- Raised by `in` with a register-reference operand: `IN_REGDEST` is OPEN and rule R213 says a model must refuse this form.
  Safe (log entry 6). -/
  | inRegisterDest
  /-- Raised by the host's load, never by a step: the machine is not as reset left it, or was loaded before (rule R223). Safe. -/
  | loadOutsideReset
  /-- Raised by the host's load, never by a step: the image has more than 32768 words (rule R223). Safe. -/
  | imageTooLong
deriving DecidableEq, Repr

/-- Memory: the cells that hold something else than 0, addresses strictly rising (log entry 1). The unit is the 16-bit word,
the hardware's smallest addressable unit (rule R50). A cell not listed reads 0 (rule R34). -/
abbrev Mem := List (Nat × Word)

/-- The fault record (rule R32). -/
structure FaultRecord where
  /-- `cause`. -/
  cause : Fault
  /-- `fault_pc`: the address of the faulting instruction's opcode word, or the out-of-range `pc` of an opcode fetch. -/
  faultPc : Word
  /-- `opcode`: the opcode word, when it was fetched. -/
  opcode : Option Word
  /-- `args`: the raw argument words fetched so far. -/
  args : List Word
  /-- `bad_args`: the offending positions, for InvalidArgument. -/
  badArgs : List Nat
  /-- `addr`: the out-of-range address, for AddressingError. -/
  addr : Option Word
deriving DecidableEq, Repr

/-- Which of the three conditions the machine is in (rule R31). -/
inductive Status where
  | running
  | halted
  | faulted
deriving DecidableEq, Repr

/-- The state of the machine. -/
structure State where
  /-- r0 to r7 (rule R20). -/
  regs : Vector Word 8
  /-- The program counter (rule R24). -/
  pc : Word
  /-- The cells 0..32767 (rule R28). -/
  mem : Mem
  /-- The stack, oldest entry first, the top last (rule R29). -/
  stack : List Word
  /-- Set by `halt` alone (rule R30). -/
  halted : Bool
  /-- The fault record, `none` while it is empty (rule R32). -/
  fault : Option FaultRecord
  /-- The words `out` has emitted, oldest first (rules R35, R226). -/
  out : List Word
  /-- The lines the host has supplied and no `in` has consumed, the next one first (rules R35, R227; log entry 7). -/
  lines : List (List Word)
  /-- The start address of the `in` that waits for its line, if one waits (rule R212; log entry 8). -/
  waiting : Option Word
  /-- Whether the one load since reset was made (rule R223; log entry 9). -/
  loaded : Bool
  /-- The model's own: how many free values were drawn (log entry 10). -/
  draws : Nat
deriving DecidableEq, Repr

/-- The machine right after reset (rules R34, R220, R270). -/
def State.reset : State :=
  { regs := Vector.replicate 8 0
    pc := Config.pcReset
    mem := []
    stack := []
    halted := false
    fault := none
    out := []
    lines := []
    waiting := none
    loaded := false
    draws := 0 }

end Sys2Proof.Machine
end

