-- ==== Sys2Proof/Machine/Ops.lean ====
section
/-! DEFINITION. The named operations over memory, registers, stack and ports, and taking a fault (00_scope.md section 5). -/

namespace Sys2Proof.Machine

/-! ### Memory -/

/-- The word in the cell at an address; 0 when nothing is listed there (rule R34). -/
def memGet : Mem → Nat → Word
  | [], _ => 0
  | (b, w) :: m, a => if a = b then w else memGet m a

/-- Put a non-zero word at its place, in place of an entry of the same address. -/
def memInsert : Mem → Nat → Word → Mem
  | [], a, v => [(a, v)]
  | (b, w) :: m, a, v =>
    if a < b then (a, v) :: (b, w) :: m
    else if a = b then (a, v) :: m
    else (b, w) :: memInsert m a v

/-- Replace the content of one cell (rules R55, R65), keeping the canonical form: a cell that becomes 0 is no longer listed. -/
def memSet (m : Mem) (a : Nat) (v : Word) : Mem :=
  if v = 0 then m.filter (fun e => decide (e.1 ≠ a)) else memInsert m a v

/-- Write words to consecutive cells (rules R211, R222). -/
def memSetAll : Mem → Nat → List Word → Mem
  | m, _, [] => m
  | m, a, w :: ws => memSetAll (memSet m a w) (a + 1) ws

/-- The canonical form from a lower bound on: addresses strictly rise from `lo`, lie in 0..32767, and no entry is 0. -/
def memWfFrom : Nat → Mem → Bool
  | _, [] => true
  | lo, (a, w) :: m => decide (lo ≤ a) && decide (a < Config.memWords) && decide (w ≠ 0) && memWfFrom (a + 1) m

/-- The canonical form of memory. -/
def Memory.wf (m : Mem) : Bool := memWfFrom 0 m

/-- `MemRead(addr, 1)`: the word at an address, `none` where the address is above 32767 (rule R56). -/
def memRead (m : Mem) (addr : Nat) : Option Word :=
  if addr < Config.memWords then some (memGet m addr) else none

/-- The cell of the state's memory at an address. -/
def State.cell (s : State) (a : Nat) : Word := memGet s.mem a

/-! ### Registers and stack -/

/-- `x[k]` (rule R20). -/
def State.reg (s : State) (k : Fin 8) : Word := s.regs[k.val]

/-- `x[k] <- v` (rule R20): no register is hard-wired. -/
def State.setReg (s : State) (k : Fin 8) (v : Word) : State := { s with regs := s.regs.set k.val v }

/-- `Push(v)`: append at the end (rule R29). -/
def State.push (s : State) (v : Word) : State := { s with stack := s.stack ++ [v] }

/-- `Pop()`: the last word and the state without it, `none` on the empty stack (rule R29). -/
def State.pop (s : State) : Option (Word × State) :=
  match s.stack.getLast? with
  | none => none
  | some v => some (v, { s with stack := s.stack.dropLast })

/-- `pc <- t` (rule R173): no check is made here. -/
def State.jump (s : State) (t : Word) : State := { s with pc := t }

/-- `OutEmit(v)` (rule R226): the port accepts every word. -/
def State.emit (s : State) (v : Word) : State := { s with out := s.out ++ [v] }

/-! ### Status and faults -/

/-- The status (rule R31). -/
def State.status (s : State) : Status :=
  if s.fault.isSome then .faulted else if s.halted then .halted else .running

/-- The numeric code of a cause (rule R241); an empty record has code 0. -/
def causeCode : Option FaultRecord → Nat
  | none => 0
  | some r =>
    match r.cause with
    | .unknownOpcode => 1
    | .invalidArgument => 2
    | .addressingError => 3
    | .stackUnderflow => 4
    | .divideByZero => 5

/-- TAKING A FAULT (rule R247): the record is filled and the status is Faulted; nothing is saved, control goes nowhere, and
`pc` keeps what the fetches left in it (rule R248). There is no return from it (rule R251). -/
def State.raise (s : State) (r : FaultRecord) : State := { s with fault := some r }

/-- A fault an instruction raises when it executes, `pc` being past its last word (rules R115, R248): `fault_pc` is the address
of its opcode word, and opcode and arguments are its raw words (rule R32). -/
def raiseIn (i : Instr) (c : Fault) (addr : Option Word) (s : State) : State :=
  s.raise { cause := c
            faultPc := s.pc - BitVec.ofNat 16 i.len
            opcode := some i.opcode
            args := i.args.map Arg.word
            badArgs := []
            addr := addr }

/-- `MemWrite(addr, 1, v)` by an instruction: the word verbatim, or AddressingError(addr) and nothing written (rules R56, R65). -/
def memWrite (i : Instr) (addr v : Word) (s : State) : State :=
  if addr.toNat < Config.memWords then { s with mem := memSet s.mem addr.toNat v }
  else raiseIn i .addressingError (some addr) s

end Sys2Proof.Machine
end

