-- ==== Sys2Proof/Machine/Operands.lean ====
section
/-! DEFINITION. The operand roles of rule R84: source, destination, write-address, memory-run destination. -/

namespace Sys2Proof.Machine

/-- `SrcVal` (rule R116): a literal is itself, a register reference the register's content, one level deep (rule R119). -/
def srcVal (s : State) : Arg → Word
  | .lit w => w
  | .reg k => s.reg k

/-- Where a destination operand writes. -/
inductive Target where
  | mem (addr : Word)
  | reg (k : Fin 8)
deriving DecidableEq, Repr

/-- `DstTgt` (rule R117): a literal names a memory cell, a register reference the register itself, not its content. -/
def dstTgt : Arg → Target
  | .lit w => .mem w
  | .reg k => .reg k

/-- `Store(tgt, v)` (rule R118), by an instruction: one cell or one register, the word verbatim. -/
def store (i : Instr) (t : Target) (v : Word) (s : State) : State :=
  match t with
  | .mem addr => memWrite i addr v s
  | .reg k => s.setReg k v

/-- The address `wmem` writes (role `waddr`, rule R191): the literal, or the register's INDEX, never its content
(spec decision D9, log entry 12). -/
def waddr : Arg → Word
  | .lit w => w
  | .reg k => BitVec.ofNat 16 k.val

/-! ### The memory run of `in` (role `mdest`, rules R211 to R214) -/

/-- What an overrunning line leaves in the cells from `a` on (rule R214): each cell up to 32767 keeps its old word or takes the
line's, as a free value says (log entry 10); nothing is written above. -/
def overrunFill (draw : Nat) : Mem → Nat → List Word → Mem
  | m, _, [] => m
  | m, a, w :: ws =>
    if a < Config.memWords then
      overrunFill draw (if Config.overrunTakesNew draw a then memSet m a w else m) (a + 1) ws
    else m

/-- The first address above 32767 among `a`, `a+1`, ... -/
def firstBeyond (a : Word) : Word := if a.toNat < Config.memWords then 32768 else a

/-- Store a line from `a` on (rule R211), or raise AddressingError where it does not fit (rule R214). The instruction is the
`in` with that literal; an empty line writes nothing. -/
def takeLine (a : Word) (line : List Word) (s : State) : State :=
  if line.length = 0 ∨ a.toNat + line.length ≤ Config.memWords then
    { s with mem := memSetAll s.mem a.toNat line }
  else
    raiseIn (.inp (.lit a)) .addressingError (some (firstBeyond a))
      { s with mem := overrunFill s.draws s.mem a.toNat line, draws := s.draws + 1 }

/-- `InLine()` and what follows it (rules R211, R212, R227): consume the host's next line whole, or wait, `pc` being past the
instruction and nothing else changed. -/
def awaitLine (a : Word) (s : State) : State :=
  match s.lines with
  | [] => { s with waiting := some a }
  | line :: rest => takeLine a line { s with lines := rest, waiting := none }

end Sys2Proof.Machine
end

