-- ==== Sys2Proof/Machine/Flags.lean ====
section
/-! DEFINITION. The machine has no flags (rule R27). What stands in their place: the results of comparisons, which go to a
destination operand, and the zero test of the conditional jumps. -/

namespace Sys2Proof.Machine

/-- The word a comparison stores: 1 or 0 (rules R160, R161). -/
def truth (b : Bool) : Word := if b then 1 else 0

/-- Equality of the two full words (rule R160). -/
def isEq (b c : Word) : Bool := decide (b = c)

/-- Unsigned greater-than (rules R121, R161). -/
def isGt (b c : Word) : Bool := decide (c.toNat < b.toNat)

/-- The condition of `jnz` and `jez`: all 16 bits zero (rules R171, R172). -/
def isZero (w : Word) : Bool := decide (w = 0)

end Sys2Proof.Machine
end

