-- ==== Sys2Proof/Machine/Alu.lean ====
section
/-! DEFINITION. `add`, `mul`, `mod`, `and`, `or`, `not` (45_alu.md). Operands are unsigned words; every result is the exact
number reduced modulo 32768 (rules R120, R186; for `mod`, `and`, `or` the spec's decision D8, log entry 13). -/

namespace Sys2Proof.Machine

/-- A result of the ALU: the exact number, reduced (rule R120). -/
def value (n : Nat) : Word := BitVec.ofNat 16 (n % Config.valueMod)

/-- Rule R180. -/
def aluAdd (b c : Word) : Word := value (b.toNat + c.toNat)

/-- Rule R181. -/
def aluMul (b c : Word) : Word := value (b.toNat * c.toNat)

/-- Rule R182, for a non-zero divisor. -/
def aluMod (b c : Word) : Word := value (b.toNat % c.toNat)

/-- Rule R183. -/
def aluAnd (b c : Word) : Word := value (b &&& c).toNat

/-- Rule R184. -/
def aluOr (b c : Word) : Word := value (b ||| c).toNat

/-- `not15` (rule R185): 32767 less the low 15 bits. -/
def aluNot (b : Word) : Word := value (32767 - b.toNat % 32768)

/-- Rule R180. -/
def execAdd (a b c : Arg) (s : State) : Host.Outcome State Fault Refusal :=
  .next (store (.add a b c) (dstTgt a) (aluAdd (srcVal s b) (srcVal s c)) s)

/-- Rule R181. -/
def execMul (a b c : Arg) (s : State) : Host.Outcome State Fault Refusal :=
  .next (store (.mul a b c) (dstTgt a) (aluMul (srcVal s b) (srcVal s c)) s)

/-- Rule R182: DivideByZero, whatever the dividend, when the divisor is 0 (rule R246). -/
def execMod (a b c : Arg) (s : State) : Host.Outcome State Fault Refusal :=
  if isZero (srcVal s c) then .next (raiseIn (.mod a b c) .divideByZero none s)
  else .next (store (.mod a b c) (dstTgt a) (aluMod (srcVal s b) (srcVal s c)) s)

/-- Rule R183. -/
def execAnd (a b c : Arg) (s : State) : Host.Outcome State Fault Refusal :=
  .next (store (.and a b c) (dstTgt a) (aluAnd (srcVal s b) (srcVal s c)) s)

/-- Rule R184. -/
def execOr (a b c : Arg) (s : State) : Host.Outcome State Fault Refusal :=
  .next (store (.or a b c) (dstTgt a) (aluOr (srcVal s b) (srcVal s c)) s)

/-- Rule R185. -/
def execNot (a b : Arg) (s : State) : Host.Outcome State Fault Refusal :=
  .next (store (.not a b) (dstTgt a) (aluNot (srcVal s b)) s)

end Sys2Proof.Machine
end

