-- ==== Sys2Proof/Machine/CallRet.lean ====
section
/-! DEFINITION. `call`, `ret` (47_call_ret.md). -/

namespace Sys2Proof.Machine

/-- Rule R200: `pc` is already the address of the instruction after the call. -/
def execCall (a : Arg) (s : State) : Host.Outcome State Fault Refusal :=
  .next ((s.push s.pc).jump (srcVal s a))

/-- Rule R201: on the empty stack StackUnderflow, not a normal halt (spec decision D10, log entry 15). -/
def execRet (s : State) : Host.Outcome State Fault Refusal :=
  match s.pop with
  | none => .next (raiseIn .ret .stackUnderflow none s)
  | some (v, t) => .next (t.jump v)

end Sys2Proof.Machine
end

