-- ==== Sys2Proof/Machine/Compare.lean ====
section
/-! DEFINITION. `eq`, `gt` (43_compare.md). -/

namespace Sys2Proof.Machine

/-- Rule R160. -/
def execEq (a b c : Arg) (s : State) : Host.Outcome State Fault Refusal :=
  .next (store (.eq a b c) (dstTgt a) (truth (isEq (srcVal s b) (srcVal s c))) s)

/-- Rule R161. -/
def execGt (a b c : Arg) (s : State) : Host.Outcome State Fault Refusal :=
  .next (store (.gt a b c) (dstTgt a) (truth (isGt (srcVal s b) (srcVal s c))) s)

end Sys2Proof.Machine
end

