-- ==== Sys2Proof/Machine/HaltNoop.lean ====
section
/-! DEFINITION. `halt` and `noop` (41_halt_noop.md). In every meaning `pc` is already past the instruction (rule R115). -/

namespace Sys2Proof.Machine

/-- Rule R140. -/
def execHalt (s : State) : Host.Outcome State Fault Refusal := .next { s with halted := true }

/-- Rule R141. -/
def execNoop (s : State) : Host.Outcome State Fault Refusal := .next s

end Sys2Proof.Machine
end

