-- ==== Sys2Proof/Machine/Jumps.lean ====
section
/-! DEFINITION. `jmp`, `jnz`, `jez` (44_jumps.md): absolute, unchecked targets (rule R173). -/

namespace Sys2Proof.Machine

/-- Rule R170. -/
def execJmp (a : Arg) (s : State) : Host.Outcome State Fault Refusal := .next (s.jump (srcVal s a))

/-- Rule R171. -/
def execJnz (a b : Arg) (s : State) : Host.Outcome State Fault Refusal :=
  .next (if isZero (srcVal s a) then s else s.jump (srcVal s b))

/-- Rule R172. -/
def execJez (a b : Arg) (s : State) : Host.Outcome State Fault Refusal :=
  .next (if isZero (srcVal s a) then s.jump (srcVal s b) else s)

end Sys2Proof.Machine
end

