-- ==== Sys2Proof/Machine/OutIn.lean ====
section
/-! DEFINITION. `out`, `in` (48_out_in.md). -/

namespace Sys2Proof.Machine

/-- Rule R210: the word verbatim; never waits, never faults (rule R226). -/
def execOut (a : Arg) (s : State) : Host.Outcome State Fault Refusal := .next (s.emit (srcVal s a))

/-- Rules R211, R212, R214 for a literal; a register reference is refused, as rule R213 says a model must (log entry 6). -/
def execIn (a : Arg) (s : State) : Host.Outcome State Fault Refusal :=
  match a with
  | .lit w => .next (awaitLine w s)
  | .reg _ => .refused .inRegisterDest

end Sys2Proof.Machine
end

