-- ==== Sys2Proof/Machine/RmemWmem.lean ====
section
/-! DEFINITION. `rmem`, `wmem` (46_rmem_wmem.md). -/

namespace Sys2Proof.Machine

/-- Rule R190: the address is the source operand's value; the word is stored verbatim. -/
def execRmem (a b : Arg) (s : State) : Host.Outcome State Fault Refusal :=
  match memRead s.mem (srcVal s b).toNat with
  | none => .next (raiseIn (.rmem a b) .addressingError (some (srcVal s b)) s)
  | some v => .next (store (.rmem a b) (dstTgt a) v s)

/-- Rule R191: always a memory cell; a register reference names the cell of its index. -/
def execWmem (a b : Arg) (s : State) : Host.Outcome State Fault Refusal :=
  .next (memWrite (.wmem a b) (waddr a) (srcVal s b) s)

end Sys2Proof.Machine
end

