-- ==== Sys2Proof/Machine/SetPushPop.lean ====
section
/-! DEFINITION. `set`, `push`, `pop` (42_set_push_pop.md). -/

namespace Sys2Proof.Machine

/-- Rule R150: the word is moved verbatim. -/
def execSet (a b : Arg) (s : State) : Host.Outcome State Fault Refusal :=
  .next (store (.set a b) (dstTgt a) (srcVal s b) s)

/-- Rule R151. -/
def execPush (a : Arg) (s : State) : Host.Outcome State Fault Refusal := .next (s.push (srcVal s a))

/-- Rule R152: StackUnderflow on the empty stack (rule R245). -/
def execPop (a : Arg) (s : State) : Host.Outcome State Fault Refusal :=
  match s.pop with
  | none => .next (raiseIn (.pop a) .stackUnderflow none s)
  | some (v, t) => .next (store (.pop a) (dstTgt a) v t)

end Sys2Proof.Machine
end

