-- ==== Sys2Proof/Machine/Fetch.lean ====
section
/-! DEFINITION. Fetch, decode and validation (rules R111 to R114 of 40_step.md). -/

namespace Sys2Proof.Machine

/-- The words of at most `n` consecutive cells from `a`, up to the end of memory: what fetches from `a` on can read (rules R56,
R113). A read has no side effect (rule R55), so looking at a word that the instruction does not have changes nothing
(log entry 18). -/
def fetchWords (m : Mem) : Nat → Nat → List Word
  | 0, _ => []
  | n + 1, a =>
    match memRead m a with
    | none => []
    | some w => w :: fetchWords m n (a + 1)

/-- The state a rejected fetch leaves (rules R111 to R114, R244, R248, R250). -/
def fetchFault (e : DecodeError) (s : State) : State :=
  match e with
  | .noOpcode =>
    s.raise { cause := .addressingError, faultPc := s.pc, opcode := none, args := [], badArgs := [], addr := some s.pc }
  | .unknownOpcode op =>
    { s with pc := s.pc + 1 }.raise
      { cause := .unknownOpcode, faultPc := s.pc, opcode := some op, args := [], badArgs := [], addr := none }
  | .cutShort op args =>
    let after := s.pc + BitVec.ofNat 16 (1 + args.length)
    { s with pc := after }.raise
      { cause := .addressingError, faultPc := s.pc, opcode := some op, args := args, badArgs := [], addr := some after }
  | .invalidArgument op args =>
    { s with pc := s.pc + BitVec.ofNat 16 (1 + args.length) }.raise
      { cause := .invalidArgument, faultPc := s.pc, opcode := some op, args := args, badArgs := badArgs args, addr := none }

/-- What the common part of a step ends in: the Faulted state, or an instruction to execute and the state to execute it in. -/
inductive Fetched where
  | stop (s : State)
  | run (i : Instr) (s : State)

/-- The state in which an instruction found at `pc` executes: `pc` past its last word (rules R113, R115). -/
def State.past (s : State) (i : Instr) : State := { s with pc := s.pc + BitVec.ofNat 16 i.len }

/-- What the decoder reads at `pc`; an instruction has at most 4 words (rule R80). -/
def decodeAt (s : State) : Decoded := decode (fetchWords s.mem 4 s.pc.toNat)

/-- Fetch, decode and validate the instruction at `pc`. -/
def fetch (s : State) : Fetched :=
  match decodeAt s with
  | .instr i _ => .run i (s.past i)
  | .reject e => .stop (fetchFault e s)

end Sys2Proof.Machine
end

