-- ==== Sys2Proof/Machine/Step.lean ====
section
/-! DEFINITION. The step (rule R110) and the placing of one instruction where it fetches. -/

namespace Sys2Proof.Machine

/-- One step. Running: the pending `in` goes on waiting or completes (rule R212), or the instruction at `pc` is fetched and
executed. Halted: does nothing (rule R225). Faulted: no step is performed, the answer is the fault (rules R31, R247; log
entry 5). -/
def step (s : State) : Host.Outcome State Fault Refusal :=
  match s.fault with
  | some r => .fault r.cause
  | none =>
    if s.halted then .next s
    else
      match s.waiting with
      | some a => .next (awaitLine a s)
      | none =>
        match fetch s with
        | .stop t => .next t
        | .run i t => exec i t

/-- `s` with the instruction whose bits are `w` stored in the four cells from `pc` on, as far as memory reaches (log entry 19). -/
def State.withFetchWord (s : State) (nbits w : Nat) : State :=
  { s with mem := memSetAll s.mem s.pc.toNat ((tableWords nbits w).take (Config.memWords - s.pc.toNat)) }

end Sys2Proof.Machine
end

