-- ==== Sys2Proof/Machine/HostPorts.lean ====
section
/-! DEFINITION. The host's interfaces (50_interfaces.md): load, the answer to an `in`, and the run loop. Reset is `State.reset`;
the status is `State.status`, the fault report the field `fault`, the output port the field `out`. -/

namespace Sys2Proof.Machine

/-- The machine is as reset left it, but for the lines the host has ready (rule R223). -/
def inReset (s : State) : Bool :=
  decide (s = { State.reset with lines := s.lines, draws := s.draws })

/-- The load (rules R222, R223): the image verbatim from address 0; refused outside the reset state, a second time, and for
more than 32768 words. -/
def load (image : List Word) (s : State) : Host.Outcome State Fault Refusal :=
  if inReset s then
    if image.length ≤ Config.memWords then .next { s with mem := memSetAll s.mem 0 image, loaded := true }
    else .refused .imageTooLong
  else .refused .loadOutsideReset

/-- The host supplies one more line (rule R227): whatever words it likes (rule R228). -/
def supplyLine (line : List Word) (s : State) : State := { s with lines := s.lines ++ [line] }

/-- The run loop (rules R125, R224), cut after a number of steps: it steps while the status is Running. -/
def runFor : Nat → State → Host.Outcome State Fault Refusal
  | 0, s => .next s
  | n + 1, s =>
    if s.status = .running then
      match step s with
      | .next t => runFor n t
      | .fault f => .fault f
      | .refused r => .refused r
    else .next s

end Sys2Proof.Machine
end

