-- ==== Sys2Proof/Safety.lean ====
section
/-! DEFINITION. What counts as a safe run, and the invariant of the machine, in the terms claims use. -/

namespace Sys2Proof

open Sys2Proof.Machine

/-- A run that has ended normally: the status is Halted (rule R233). -/
def EndedNormally (s : State) : Prop := s.status = .halted

/-- The first `n` steps from `s` meet no fault and no refused form: every one answers a next state whose status is not Faulted. -/
def SafeFor : Nat → State → Prop
  | 0, s => s.status ≠ .faulted
  | n + 1, s => s.status ≠ .faulted ∧ ∃ t, step s = .next t ∧ SafeFor n t

/-- A fault record says what its cause says it records (rule R241). -/
def RecordOk (r : FaultRecord) : Prop :=
  (r.cause = .addressingError ↔ ∃ a, r.addr = some a ∧ Config.memWords ≤ a.toNat) ∧
  (r.addr.isSome ↔ r.cause = .addressingError) ∧
  (r.badArgs ≠ [] ↔ r.cause = .invalidArgument) ∧
  (r.opcode = none → r.cause = .addressingError ∧ r.args = [] ∧ r.addr = some r.faultPc) ∧
  r.args.length ≤ 3

/-- The invariant of the machine, kept by every step from any state that has it:
memory is in its canonical form (so every cell listed is one of 0..32767); Halted and Faulted exclude each other (rule R31);
an `in` waits only while the machine is Running, with a literal start address (rules R211, R212); and the fault record is
one its cause allows (rule R241). -/
structure Inv (s : State) : Prop where
  mem : Memory.wf s.mem = true
  exclusive : s.halted = true → s.fault = none
  waits : ∀ a, s.waiting = some a → s.halted = false ∧ s.fault = none ∧ a.toNat < Config.memWords
  record : ∀ r, s.fault = some r → RecordOk r

end Sys2Proof
end

