-- ==== Sys2Proof/Certificates/Slice0/Obligations.lean ====
section
/-! DEFINITION. The statements for the provers. The words they use come first (namespace Sys2Proof.Claims), then one definition
per statement. In every statement about `exec`, `s` is the state the instruction executes in: `pc` is already the address of
the word after its last argument, `a0 + 1 + arity` (rule R115); `StepRunsDecoded` ties it to `step`. -/

namespace Sys2Proof.Claims

open Sys2Proof.Machine

/-- `t` is `s` with the word `v` written, verbatim, to the destination `a` (one register, or one memory cell), and NOTHING else
changed: every other register, every other cell, `pc`, the stack, `halted`, the fault record, the ports and the model's own
fields are as in `s`. -/
structure WroteDest (a : Arg) (v : Word) (s t : State) : Prop where
  reg : ∀ j, t.reg j = if a = .reg j then v else s.reg j
  cell : ∀ n, t.cell n = match a with | .lit w => if n = w.toNat then v else s.cell n | .reg _ => s.cell n
  pc : t.pc = s.pc
  stack : t.stack = s.stack
  halted : t.halted = s.halted
  fault : t.fault = s.fault
  out : t.out = s.out
  lines : t.lines = s.lines
  waiting : t.waiting = s.waiting
  loaded : t.loaded = s.loaded
  draws : t.draws = s.draws

/-- `t` is `s` but for memory cells. -/
structure SameButMemory (s t : State) : Prop where
  reg : ∀ j, t.reg j = s.reg j
  pc : t.pc = s.pc
  stack : t.stack = s.stack
  halted : t.halted = s.halted
  out : t.out = s.out
  loaded : t.loaded = s.loaded

/-- The arities of rule R82, by opcode number. -/
def arity (n : Nat) : Nat := [0, 2, 1, 1, 3, 3, 1, 2, 2, 3, 3, 3, 3, 3, 2, 2, 2, 1, 0, 1, 1, 0].getD n 0

/-- The instructions whose result the ALU computes (rule R120). -/
def isAlu : Instr → Bool
  | .eq .. | .gt .. | .add .. | .mul .. | .mod .. | .and .. | .or .. | .not .. => true
  | .halt | .set .. | .push _ | .pop _ | .jmp _ | .jnz .. | .jez .. | .rmem .. | .wmem .. | .call _ | .ret | .out _ | .inp _
  | .noop => false

/-- `s` with the fault record `r`. -/
def withRecord (s : State) (r : FaultRecord) : State := { s with fault := some r }

/-- How an instruction whose opcode word is at `s.pc` leaves `pc` (the table of rule R25). -/
def PcRule (s t : State) : Instr → Prop
  | .halt | .noop => t.pc = s.pc + 1
  | .push _ | .pop _ | .out _ | .inp _ => t.pc = s.pc + 2
  | .set _ _ | .not _ _ | .rmem _ _ | .wmem _ _ => t.pc = s.pc + 3
  | .eq _ _ _ | .gt _ _ _ | .add _ _ _ | .mul _ _ _ | .mod _ _ _ | .and _ _ _ | .or _ _ _ => t.pc = s.pc + 4
  | .jmp a => t.pc = srcVal s a
  | .jnz a b => t.pc = if srcVal s a ≠ 0 then srcVal s b else s.pc + 3
  | .jez a b => t.pc = if srcVal s a = 0 then srcVal s b else s.pc + 3
  | .call a => t.pc = srcVal s a ∧ t.stack = s.stack ++ [s.pc + 2]
  | .ret => s.stack = t.stack ++ [t.pc]

/-- The words of the encoding of `i` stand in memory at `s.pc`, all of them inside the memory. -/
def StandsAtPc (i : Instr) (s : State) : Prop :=
  ∀ k (h : k < (encode i).length), s.pc.toNat + k < 32768 ∧ s.cell (s.pc.toNat + k) = (encode i)[k]

/-- The machine is Running and no `in` waits: the next step fetches. -/
def Fetches (s : State) : Prop := s.status = .running ∧ s.waiting = none

/-- A function applied to the next state of an outcome. -/
def onNext (f : State → State) : Host.Outcome State Fault Refusal → Host.Outcome State Fault Refusal
  | .next t => .next (f t)
  | .fault c => .fault c
  | .refused r => .refused r

/-- Go on from the next state of an outcome. -/
def andThen (o : Host.Outcome State Fault Refusal) (f : State → Host.Outcome State Fault Refusal) :
    Host.Outcome State Fault Refusal :=
  match o with
  | .next t => f t
  | .fault c => .fault c
  | .refused r => .refused r

end Sys2Proof.Claims

open Sys2Proof Sys2Proof.Machine Sys2Proof.Claims

/-! ## Encoding -/

/-- Encoding then decoding gives back the instruction, every operand at every value, whatever words follow (30_encoding.md). -/
def Obligations.DecodeOfEncode : Prop :=
  ∀ (i : Instr) (rest : List Word), i.wf = true → decode (encode i ++ rest) = .instr i rest

/-- What is decoded encodes to exactly the words that were read: the decoder ignores no bit (30_encoding.md). -/
def Obligations.EncodeOfDecode : Prop :=
  ∀ (ws : List Word) (i : Instr) (rest : List Word), decode ws = .instr i rest → encode i ++ rest = ws

/-- A few encodings of 95_test_vectors.md, one per family. -/
def Obligations.KnownWordsDecode : Prop :=
  decode [0] = .instr .halt [] ∧
  decode [1, 32770, 1234] = .instr (.set (.reg 2) (.lit 1234)) [] ∧
  decode [4, 32768, 32769, 0] = .instr (.eq (.reg 0) (.reg 1) (.lit 0)) [] ∧
  decode [7, 32768, 6] = .instr (.jnz (.reg 0) (.lit 6)) [] ∧
  decode [9, 32768, 4, 5, 19, 32768, 0] = .instr (.add (.reg 0) (.lit 4) (.lit 5)) [19, 32768, 0] ∧
  decode [16, 32775, 1] = .instr (.wmem (.reg 7) (.lit 1)) [] ∧
  decode [17, 100] = .instr (.call (.lit 100)) [] ∧
  decode [20, 32766] = .instr (.inp (.lit 32766)) []

/-- Rule R81: the opcode is the whole word as a number, unswapped; it is one of 0..21 or it is unrecognized. -/
def Obligations.OpcodeIsWholeWord : Prop :=
  (∀ (op : Word) (ws : List Word), decode (op :: ws) = .reject (.unknownOpcode op) ↔ 21 < op.toNat) ∧
  ∀ (op : Word) (ws : List Word) (i : Instr) (rest : List Word), decode (op :: ws) = .instr i rest →
    i.opcode = op ∧ op.toNat ≤ 21

/-- Rule R85: the opcode word alone decides the length, 1 + arity, and that many words are read; an unrecognized opcode word has
no length: whatever follows it, nothing more is looked at. -/
def Obligations.LengthFixedByOpcode : Prop :=
  (∀ (op : Word) (ws : List Word) (i : Instr) (rest : List Word), decode (op :: ws) = .instr i rest →
    i.len = 1 + arity op.toNat ∧ arity op.toNat ≤ ws.length ∧ rest = ws.drop (arity op.toNat)) ∧
  ∀ (op : Word) (ws : List Word), 21 < op.toNat → decode (op :: ws) = decode [op]

/-! ## Operands -/

/-- Rule R116: a raw source word up to 32767 is itself, 32768..32775 is the content of register `w - 32768`. -/
def Obligations.SourceOperandValue : Prop :=
  ∀ (s : State) (w : Word),
    (w.toNat ≤ 32767 → srcVal s (toArg w) = w) ∧
    ∀ k : Fin 8, w.toNat = 32768 + k.val → srcVal s (toArg w) = s.reg k

/-- Rules R117, R118: storing to a raw destination word writes memory cell `w` for 0..32767 and register `w - 32768` for
32768..32775, the word verbatim, and nothing else. -/
def Obligations.DestinationStoreExact : Prop :=
  ∀ (i : Instr) (s : State) (w v : Word),
    (w.toNat ≤ 32767 → WroteDest (.lit w) v s (store i (dstTgt (toArg w)) v s)) ∧
    ∀ k : Fin 8, w.toNat = 32768 + k.val → WroteDest (.reg k) v s (store i (dstTgt (toArg w)) v s)

/-! ## Results and frames of the instructions -/

/-- `halt` sets `halted` and nothing else, and the status becomes Halted (41_halt_noop.md, halt); no further instruction
executes. That a step of the Halted machine ANSWERS the same state, where the spec says that no step is performed, is the
model's choice within the spec's decision D21 (log entry 5). -/
def Obligations.HaltStops : Prop :=
  encode .halt = [0] ∧
  ∀ s : State, exec .halt s = .next { s with halted := true } ∧
    (s.fault = none → ({ s with halted := true } : State).status = .halted ∧
      step { s with halted := true } = .next { s with halted := true })

/-- Rule R141. -/
def Obligations.NoopChangesNothing : Prop :=
  encode .noop = [21] ∧ ∀ s : State, exec .noop s = .next s

/-- Rule R150. -/
def Obligations.SetStoresSource : Prop :=
  ∀ (a b : Arg) (s : State), a.wf = true →
    encode (.set a b) = [1, a.word, b.word] ∧
    ∃ t, exec (.set a b) s = .next t ∧ WroteDest a (srcVal s b) s t

/-- Rule R151. -/
def Obligations.PushAppendsSource : Prop :=
  ∀ (a : Arg) (s : State),
    encode (.push a) = [2, a.word] ∧
    exec (.push a) s = .next { s with stack := s.stack ++ [srcVal s a] }

/-- `pop` on a stack that is not empty (42_set_push_pop.md, pop): the top leaves the stack and is written verbatim. -/
def Obligations.PopTakesTop : Prop :=
  ∀ (a : Arg) (s : State) (st : List Word) (v : Word), a.wf = true → s.stack = st ++ [v] →
    encode (.pop a) = [3, a.word] ∧
    ∃ t, exec (.pop a) s = .next t ∧ WroteDest a v { s with stack := st } t

/-- `pop` and `ret` on the empty stack take StackUnderflow and change nothing but the fault record (42, 47, 60_exceptions.md).
The record's layout and `fault_pc` are the spec's decision D3, `ret` being a fault its decision D10 (log entries 4, 15). -/
def Obligations.EmptyStackUnderflows : Prop :=
  ∀ s : State, s.stack = [] →
    (∀ a : Arg, exec (.pop a) s = .next (withRecord s
      { cause := .stackUnderflow, faultPc := s.pc - 2, opcode := some 3, args := [a.word], badArgs := [], addr := none })) ∧
    exec .ret s = .next (withRecord s
      { cause := .stackUnderflow, faultPc := s.pc - 1, opcode := some 18, args := [], badArgs := [], addr := none })

/-- Rule R160. -/
def Obligations.EqStoresTruth : Prop :=
  ∀ (a b c : Arg) (s : State), a.wf = true →
    encode (.eq a b c) = [4, a.word, b.word, c.word] ∧
    ∃ t, exec (.eq a b c) s = .next t ∧ WroteDest a (if srcVal s b = srcVal s c then 1 else 0) s t

/-- Rule R161. -/
def Obligations.GtStoresTruth : Prop :=
  ∀ (a b c : Arg) (s : State), a.wf = true →
    encode (.gt a b c) = [5, a.word, b.word, c.word] ∧
    ∃ t, exec (.gt a b c) s = .next t ∧ WroteDest a (if (srcVal s b).toNat > (srcVal s c).toNat then 1 else 0) s t

/-- Rule R170. -/
def Obligations.JmpSetsPc : Prop :=
  ∀ (a : Arg) (s : State),
    encode (.jmp a) = [6, a.word] ∧ exec (.jmp a) s = .next { s with pc := srcVal s a }

/-- Rules R171, R172. -/
def Obligations.ConditionalJumps : Prop :=
  ∀ (a b : Arg) (s : State),
    encode (.jnz a b) = [7, a.word, b.word] ∧ encode (.jez a b) = [8, a.word, b.word] ∧
    exec (.jnz a b) s = .next (if srcVal s a ≠ 0 then { s with pc := srcVal s b } else s) ∧
    exec (.jez a b) s = .next (if srcVal s a = 0 then { s with pc := srcVal s b } else s)

/-- Rule R180: the mathematical sum, reduced. -/
def Obligations.AddStoresSum : Prop :=
  ∀ (a b c : Arg) (s : State), a.wf = true →
    encode (.add a b c) = [9, a.word, b.word, c.word] ∧
    ∃ t v, exec (.add a b c) s = .next t ∧ WroteDest a v s t ∧
      v.toNat = ((srcVal s b).toNat + (srcVal s c).toNat) % 32768

/-- Rule R181: the mathematical product, reduced. -/
def Obligations.MulStoresProduct : Prop :=
  ∀ (a b c : Arg) (s : State), a.wf = true →
    encode (.mul a b c) = [10, a.word, b.word, c.word] ∧
    ∃ t v, exec (.mul a b c) s = .next t ∧ WroteDest a v s t ∧
      v.toNat = ((srcVal s b).toNat * (srcVal s c).toNat) % 32768

/-- `mod` with a non-zero divisor (45_alu.md, mod). The outer reduction is the spec's decision D8 (log entry 13). -/
def Obligations.ModStoresRemainder : Prop :=
  ∀ (a b c : Arg) (s : State), a.wf = true → srcVal s c ≠ 0 →
    encode (.mod a b c) = [11, a.word, b.word, c.word] ∧
    ∃ t v, exec (.mod a b c) s = .next t ∧ WroteDest a v s t ∧
      v.toNat = ((srcVal s b).toNat % (srcVal s c).toNat) % 32768

/-- `mod` with a zero divisor takes DivideByZero, whatever the dividend, and changes nothing but the fault record
(45_alu.md, mod). The record's layout is the spec's decision D3 (log entry 4). -/
def Obligations.ModByZeroFaults : Prop :=
  ∀ (a b c : Arg) (s : State), srcVal s c = 0 →
    exec (.mod a b c) s = .next (withRecord s
      { cause := .divideByZero, faultPc := s.pc - 4, opcode := some 11, args := [a.word, b.word, c.word], badArgs := [], addr := none })

/-- `and`, `or` bit by bit, bit 15 of the result clear (45_alu.md, and, or). The clearing is the spec's decision D8 (log
entry 13). -/
def Obligations.AndOrStoreBits : Prop :=
  ∀ (a b c : Arg) (s : State), a.wf = true →
    encode (.and a b c) = [12, a.word, b.word, c.word] ∧ encode (.or a b c) = [13, a.word, b.word, c.word] ∧
    (∃ t v, exec (.and a b c) s = .next t ∧ WroteDest a v s t ∧
      ∀ k, v.getLsbD k = (decide (k < 15) && ((srcVal s b).getLsbD k && (srcVal s c).getLsbD k))) ∧
    ∃ t v, exec (.or a b c) s = .next t ∧ WroteDest a v s t ∧
      ∀ k, v.getLsbD k = (decide (k < 15) && ((srcVal s b).getLsbD k || (srcVal s c).getLsbD k))

/-- Rule R185: 32767 less the low 15 bits; bit by bit, the complement of those bits, bit 15 clear. -/
def Obligations.NotStoresComplement : Prop :=
  ∀ (a b : Arg) (s : State), a.wf = true →
    encode (.not a b) = [14, a.word, b.word] ∧
    ∃ t v, exec (.not a b) s = .next t ∧ WroteDest a v s t ∧
      v.toNat = 32767 - (srcVal s b).toNat % 32768 ∧
      ∀ k, v.getLsbD k = (decide (k < 15) && !(srcVal s b).getLsbD k)

/-- `rmem` from an address of the memory (46_rmem_wmem.md, rmem): the word verbatim. -/
def Obligations.RmemReadsCell : Prop :=
  ∀ (a b : Arg) (s : State), a.wf = true → (srcVal s b).toNat ≤ 32767 →
    encode (.rmem a b) = [15, a.word, b.word] ∧
    ∃ t, exec (.rmem a b) s = .next t ∧ WroteDest a (s.cell (srcVal s b).toNat) s t

/-- `rmem` from an address above 32767 takes AddressingError and changes nothing but the fault record (46_rmem_wmem.md, rmem).
That reads are checked is the spec's decision D6, the record's layout D3 (log entries 4, 14). -/
def Obligations.RmemBeyondFaults : Prop :=
  ∀ (a b : Arg) (s : State), 32767 < (srcVal s b).toNat →
    exec (.rmem a b) s = .next (withRecord s
      { cause := .addressingError, faultPc := s.pc - 3, opcode := some 15, args := [a.word, b.word], badArgs := [],
        addr := some (srcVal s b) })

/-- `wmem` writes the cell of the literal, or the cell of the register's INDEX (46_rmem_wmem.md, wmem; the spec's decision D9,
log entry 12), the word verbatim; no register is written. -/
def Obligations.WmemWritesCell : Prop :=
  ∀ (a b : Arg) (s : State), a.wf = true →
    encode (.wmem a b) = [16, a.word, b.word] ∧
    ∃ t, exec (.wmem a b) s = .next t ∧
      (∀ w, a = .lit w → WroteDest (.lit w) (srcVal s b) s t) ∧
      ∀ k : Fin 8, a = .reg k → WroteDest (.lit (BitVec.ofNat 16 k.val)) (srcVal s b) s t

/-- Rule R200: `pc` is the address of the instruction after the call. -/
def Obligations.CallPushesReturn : Prop :=
  ∀ (a : Arg) (s : State),
    encode (.call a) = [17, a.word] ∧
    exec (.call a) s = .next { s with stack := s.stack ++ [s.pc], pc := srcVal s a }

/-- `ret` on a stack that is not empty (47_call_ret.md, ret): the top, unchecked, becomes `pc`. -/
def Obligations.RetPopsPc : Prop :=
  ∀ (s : State) (st : List Word) (v : Word), s.stack = st ++ [v] →
    encode .ret = [18] ∧ exec .ret s = .next { s with stack := st, pc := v }

/-- Rule R210: the word verbatim, appended to the output stream. -/
def Obligations.OutEmitsSource : Prop :=
  ∀ (a : Arg) (s : State),
    encode (.out a) = [19, a.word] ∧ exec (.out a) s = .next { s with out := s.out ++ [srcVal s a] }

/-- `in` with a literal and a line that fits (48_out_in.md, in): the line's words go to consecutive cells, nothing else is
written, the line is consumed whole. That lines are a queue in the state is the model's choice (log entry 7). -/
def Obligations.InStoresLine : Prop :=
  ∀ (a : Word) (s : State) (line : List Word) (rest : List (List Word)),
    a.toNat ≤ 32767 → s.lines = line :: rest → a.toNat + line.length ≤ 32768 →
    encode (.inp (.lit a)) = [20, a] ∧
    ∃ t, exec (.inp (.lit a)) s = .next t ∧ SameButMemory s t ∧ t.fault = s.fault ∧ t.lines = rest ∧ t.waiting = none ∧
      t.draws = s.draws ∧
      (∀ n, a.toNat ≤ n → n < a.toNat + line.length → t.cell n = line.getD (n - a.toNat) 0) ∧
      ∀ n, n < a.toNat ∨ a.toNat + line.length ≤ n → t.cell n = s.cell n

/-- `in` with no line to read waits (48_out_in.md, in; the spec's decision D15): `pc` is past it, nothing else changes, the status
stays Running; each step goes on waiting until the host has supplied a line, and the step after that does what the `in` does
with the host's first line, however many lines stand ready by then.
How the pending instruction and the host's lines are held is the model's choice (log entries 7, 8). -/
def Obligations.InWaitsForLine : Prop :=
  (∀ (a : Word) (s : State), s.lines = [] →
    exec (.inp (.lit a)) s = .next { s with waiting := some a }) ∧
  (∀ (a : Word) (s : State), s.status = .running → s.waiting = some a → s.lines = [] → step s = .next s) ∧
  (∀ (a : Word) (s : State) (line : List Word), s.status = .running → s.waiting = some a →
    step (supplyLine line s) = exec (.inp (.lit a)) { s with waiting := none, lines := s.lines ++ [line] }) ∧
  ∀ (a : Word) (s : State) (line : List Word) (rest : List (List Word)), s.status = .running → s.waiting = some a →
    s.lines = line :: rest → step s = exec (.inp (.lit a)) { s with waiting := none }

/-- `in` whose line does not fit takes AddressingError(32768) (48_out_in.md, in; the spec's decisions D14, D3): the line is
consumed, each cell from the start address on keeps its old word or takes the line's, and cells below, registers, stack,
`halted` and output are unchanged. Which of the two a cell holds is a free value (log entry 10); this holds for every choice. -/
def Obligations.InOverrunFaults : Prop :=
  ∀ (a : Word) (s : State) (line : List Word) (rest : List (List Word)),
    a.toNat ≤ 32767 → s.lines = line :: rest → 32768 < a.toNat + line.length →
    ∃ t, exec (.inp (.lit a)) s = .next t ∧ SameButMemory s t ∧ t.lines = rest ∧ t.waiting = none ∧
      t.fault = some
        { cause := .addressingError, faultPc := s.pc - 2, opcode := some 20, args := [a], badArgs := [], addr := some 32768 } ∧
      (∀ n, n < a.toNat ∨ 32768 ≤ n → t.cell n = s.cell n) ∧
      ∀ n, a.toNat ≤ n → n < 32768 → t.cell n = s.cell n ∨ t.cell n = line.getD (n - a.toNat) 0

/-- `in` with a register reference is refused (48_out_in.md; the spec's decision D12: `IN_REGDEST` is open and a model must
refuse the form; log entry 6). -/
def Obligations.InRegisterRefused : Prop :=
  ∀ (k : Fin 8) (s : State),
    encode (.inp (.reg k)) = [20, BitVec.ofNat 16 (32768 + k.val)] ∧ exec (.inp (.reg k)) s = .refused .inRegisterDest

/-! ## The step -/

/-- When the words at `pc` decode to an instruction, the step is `exec` of it with `pc` past its last word (40_step.md). -/
def Obligations.StepRunsDecoded : Prop :=
  ∀ (s : State) (i : Instr) (rest : List Word), Fetches s → decodeAt s = .instr i rest →
    i.wf = true ∧ step s = exec i { s with pc := s.pc + BitVec.ofNat 16 i.len }

/-- Every well-formed instruction whose encoding stands at `pc`, wherever in memory, is the one the step runs (40_step.md). -/
def Obligations.StepRunsEncodedWords : Prop :=
  ∀ (s : State) (i : Instr), Fetches s → i.wf = true → StandsAtPc i s →
    step s = exec i { s with pc := s.pc + BitVec.ofNat 16 i.len }

/-- The fetch reads memory at the moment of the step and nothing else: two states with the same `pc` and the same four cells
there decode alike (10_state.md, 20_memory.md section 7). -/
def Obligations.FetchReadsCellsAtPc : Prop :=
  ∀ s t : State, s.pc = t.pc →
    (∀ k, k < 4 → s.pc.toNat + k < 32768 → s.cell (s.pc.toNat + k) = t.cell (s.pc.toNat + k)) → decodeAt s = decodeAt t

/-- A fetch at `pc` above 32767 takes AddressingError(pc), `pc` unchanged (40_step.md, 60_exceptions.md). The record and
`pc` in the Faulted state are the spec's decisions D3, D4, the check itself D6 (log entries 4, 14). -/
def Obligations.OpcodeFetchBeyondFaults : Prop :=
  ∀ s : State, Fetches s → 32767 < s.pc.toNat →
    step s = .next (withRecord s
      { cause := .addressingError, faultPc := s.pc, opcode := none, args := [], badArgs := [], addr := some s.pc })

/-- An opcode word above 21 takes UnknownOpcode, `pc` past that word, wherever it stands (40_step.md, 60_exceptions.md; the
record and `pc` are the spec's decisions D3, D4, log entry 4). -/
def Obligations.UnknownOpcodeFaults : Prop :=
  ∀ s : State, Fetches s → s.pc.toNat ≤ 32767 → 21 < (s.cell s.pc.toNat).toNat →
    step s = .next (withRecord { s with pc := s.pc + 1 }
      { cause := .unknownOpcode, faultPc := s.pc, opcode := some (s.cell s.pc.toNat), args := [], badArgs := [], addr := none })

/-- An instruction whose last argument would lie above 32767 takes AddressingError(32768), with the arguments that could be
fetched and whatever their values (40_step.md, 60_exceptions.md; the order is the spec's decision D5, record and `pc` are D3,
D4, log entry 4). -/
def Obligations.ArgumentFetchBeyondFaults : Prop :=
  ∀ (s : State) (i : Instr), Fetches s → s.pc.toNat ≤ 32767 → s.cell s.pc.toNat = i.opcode →
    32767 < s.pc.toNat + i.args.length →
    step s = .next (withRecord { s with pc := 32768 }
      { cause := .addressingError, faultPc := s.pc, opcode := some i.opcode,
        args := (List.range (32767 - s.pc.toNat)).map (fun k => s.cell (s.pc.toNat + 1 + k)), badArgs := [], addr := some 32768 })

/-- An argument word above 32775, in any position of any instruction, takes InvalidArgument after all arguments are fetched, and
the record names exactly the offending positions (40_step.md, 60_exceptions.md; that all are fetched first is the spec's
decision D5, record and `pc` are D3, D4, log entry 4). -/
def Obligations.InvalidArgumentFaults : Prop :=
  ∀ (s : State) (i : Instr) (args : List Word), Fetches s → s.cell s.pc.toNat = i.opcode → args.length = i.args.length →
    s.pc.toNat + args.length ≤ 32767 → (∀ k (h : k < args.length), s.cell (s.pc.toNat + 1 + k) = args[k]) →
    (∃ w ∈ args, 32775 < w.toNat) →
    ∃ bad : List Nat,
      (∀ n, n ∈ bad ↔ ∃ k w, n = k + 1 ∧ args[k]? = some w ∧ 32775 < w.toNat) ∧
      step s = .next (withRecord { s with pc := s.pc + BitVec.ofNat 16 (1 + args.length) }
        { cause := .invalidArgument, faultPc := s.pc, opcode := some i.opcode, args := args, badArgs := bad, addr := none })

/-- Rule R25: how each instruction leaves `pc`. -/
def Obligations.PcAfterInstruction : Prop :=
  ∀ (s t : State) (i : Instr) (rest : List Word), Fetches s → decodeAt s = .instr i rest → step s = .next t →
    t.fault = none → PcRule s t i

/-- `pc` never wraps: an instruction that completes and transfers no control leaves `pc` exactly its length further on, at most
32768 (10_state.md, section 2: the spec's inference). -/
def Obligations.PcNeverWraps : Prop :=
  ∀ (s t : State) (i : Instr) (rest : List Word), Fetches s → decodeAt s = .instr i rest → step s = .next t →
    (match i with
      | .jmp _ | .jnz _ _ | .jez _ _ | .call _ | .ret => False
      | _ => True) →
    t.pc.toNat = s.pc.toNat + i.len ∧ t.pc.toNat ≤ 32768

/-- Every fault, of the fetch or of the instruction, records the address the step fetched at and leaves `pc` past the words it
fetched, the opcode word and the recorded arguments (60_exceptions.md section 2; the spec's decisions D3, D4, log entry 4). -/
def Obligations.FaultLeavesPc : Prop :=
  ∀ (s t : State) (r : FaultRecord), Fetches s → step s = .next t → t.fault = some r →
    r.faultPc = s.pc ∧
    t.pc = match r.opcode with
      | none => s.pc
      | some _ => s.pc + BitVec.ofNat 16 (1 + r.args.length)

/-! ## Rules of the whole machine -/

/-- Halted and Faulted are terminal (10_state.md section 6; 50_interfaces.md section 4): a step of a Halted machine does nothing,
and no step is performed on a Faulted one. That the model answers the fault's cause there, and the unchanged state when
Halted, is its choice within the spec's decision D21 (log entry 5). -/
def Obligations.TerminalStatus : Prop :=
  ∀ s : State,
    (s.status = .halted → step s = .next s) ∧
    (s.status = .faulted → ∃ r, s.fault = some r ∧ step s = .fault r.cause)

/-- Rule R30: false at creation, set by `halt` alone, cleared by nothing, not set by a fault; once true the run loop stops. -/
def Obligations.OnlyHaltSetsHalted : Prop :=
  State.reset.halted = false ∧
  (∀ (i : Instr) (s t : State), exec i s = .next t → t.halted = (s.halted || decide (i = .halt))) ∧
  (∀ s t : State, step s = .next t → s.halted = true → t.halted = true) ∧
  (∀ s t : State, step s = .next t → s.halted = false → t.halted = true →
    s.waiting = none ∧ s.cell s.pc.toNat = 0 ∧ t.fault = none) ∧
  ∀ (n : Nat) (s : State), s.halted = true → runFor n s = .next s

/-- A step that takes a fault writes nothing but `pc` and the fault record, but for the cells of an overrunning `in`, its line
and the model's draw of them (40_step.md section 3; the spec's decision D26; log entries 4, 10). -/
def Obligations.FaultWritesNothing : Prop :=
  ∀ s t : State, s.status = .running → step s = .next t → t.fault ≠ none →
    (∀ j, t.reg j = s.reg j) ∧ t.stack = s.stack ∧ t.halted = s.halted ∧ t.out = s.out ∧ t.loaded = s.loaded ∧
    ((t.mem = s.mem ∧ t.lines = s.lines ∧ t.waiting = s.waiting ∧ t.draws = s.draws) ∨
      ∃ r a, t.fault = some r ∧ r.cause = .addressingError ∧ r.opcode = some 20 ∧ r.args = [a] ∧
        ∀ n, n < a.toNat → t.cell n = s.cell n)

/-- No instruction changes a register other than the one its destination operand names (10_state.md section 1). -/
def Obligations.RegisterWrittenOnlyAsDest : Prop :=
  ∀ (i : Instr) (s t : State) (j : Fin 8), exec i s = .next t → t.reg j ≠ s.reg j → i.dest = some (.reg j)

/-- No instruction depends on a register it does not name as a source operand: with another word in it, the instruction does
the same to everything else, and that register ends with the same word in both runs or keeps in each the word it had there
(10_state.md section 1). So a destination's old content reaches nothing, not even its own new value, and `wmem`'s first operand
and `in`'s read no register. -/
def Obligations.UnnamedRegisterUnread : Prop :=
  ∀ (i : Instr) (s t : State) (k : Fin 8) (v : Word), .reg k ∉ i.sources → exec i s = .next t →
    ∃ u, exec i (s.setReg k v) = .next u ∧ (∀ j, j ≠ k → u.reg j = t.reg j) ∧
      (u.reg k = t.reg k ∨ (u.reg k = v ∧ t.reg k = s.reg k)) ∧ u.pc = t.pc ∧ u.mem = t.mem ∧
      u.stack = t.stack ∧ u.halted = t.halted ∧ u.fault = t.fault ∧ u.out = t.out ∧ u.lines = t.lines ∧
      u.waiting = t.waiting ∧ u.loaded = t.loaded ∧ u.draws = t.draws

/-- Which instruction can change which cell (20_memory.md section 8): `wmem` the cell of its write-address, `in` cells from its
start address on, a destination instruction the cell of a literal destination; no other instruction any cell. -/
def Obligations.MemoryWritersOnly : Prop :=
  ∀ (i : Instr) (s t : State) (n : Nat), exec i s = .next t → t.cell n ≠ s.cell n →
    (∃ w, i.dest = some (.lit w) ∧ n = w.toNat) ∨
    (∃ a b, i = .wmem a b ∧ n = (waddr a).toNat) ∨
    ∃ w line rest, i = .inp (.lit w) ∧ s.lines = line :: rest ∧ w.toNat ≤ n ∧ n < w.toNat + line.length ∧ n < 32768

/-- The stack changes only at its end, by one entry: `push` and `call` append, `pop` and `ret` remove (10_state.md section 5). -/
def Obligations.StackDiscipline : Prop :=
  ∀ (i : Instr) (s t : State), exec i s = .next t →
    t.stack = s.stack ∨
    (∃ v, t.stack = s.stack ++ [v] ∧ ∃ a, i = .push a ∨ i = .call a) ∨
    ∃ v, s.stack = t.stack ++ [v] ∧ (i = .ret ∨ ∃ a, i = .pop a)

/-- The ports: only `out` emits, one word, and only `in` consumes, one whole line (50_interfaces.md sections 5, 6). -/
def Obligations.PortsOnlyByOutAndIn : Prop :=
  ∀ (i : Instr) (s t : State), exec i s = .next t →
    (t.out = s.out ∨ ∃ a, i = .out a ∧ t.out = s.out ++ [srcVal s a]) ∧
    (t.lines = s.lines ∨ ∃ a line, i = .inp a ∧ s.lines = line :: t.lines) ∧
    (t.waiting = s.waiting ∨ ∃ a, i = .inp a) ∧ t.loaded = s.loaded

/-- The output stream is never read back: a machine that has already emitted other words does the same (50_interfaces.md
section 5). -/
def Obligations.OutputNeverReadBack : Prop :=
  ∀ (s : State) (before : List Word),
    step { s with out := before ++ s.out } = onNext (fun t => { t with out := before ++ t.out }) (step s)

/-- What the ALU writes is below 32768 (40_step.md section 3; for `mod`, `and`, `or` the spec's decision D8, log entry 13). -/
def Obligations.AluResultInDomain : Prop :=
  ∀ (i : Instr) (s t : State), isAlu i = true → i.wf = true → s.fault = none → exec i s = .next t → t.fault = none →
    (∀ k, i.dest = some (.reg k) → (t.reg k).toNat < 32768) ∧
    ∀ w, i.dest = some (.lit w) → (t.cell w.toNat).toNat < 32768

/-- `push` of a register followed by `pop` into the same register changes nothing (95_test_vectors.md, S2; `pc` apart, which
the fetches advance). -/
def Obligations.PushPopRoundTrip : Prop :=
  ∀ (k : Fin 8) (s : State), ∃ t, exec (.push (.reg k)) s = .next t ∧ exec (.pop (.reg k)) t = .next s

/-- A `ret` that finds the stack as a `call` left it returns to the instruction after the call (95_test_vectors.md, S10). -/
def Obligations.RetAfterCallReturns : Prop :=
  ∀ (a : Arg) (s : State), ∃ t, exec (.call a) s = .next t ∧ t.pc = srcVal s a ∧
    ∀ u : State, u.stack = t.stack → exec .ret u = .next { u with stack := s.stack, pc := s.pc }

/-! ## Reset, load, run, invariant -/

/-- The values after reset (10_state.md section 7). That `pc` is 0 is the spec's decision D1 (log entry 2). -/
def Obligations.ResetValues : Prop :=
  (∀ j, State.reset.reg j = 0) ∧ (∀ n, State.reset.cell n = 0) ∧ State.reset.stack = [] ∧ State.reset.halted = false ∧
  State.reset.pc = 0 ∧ State.reset.status = .running ∧ State.reset.fault = none ∧ State.reset.out = []

/-- The invariant holds right after reset. Its clause on `waiting` is about a field of the model's own (log entry 8). -/
def Obligations.ResetHasInv : Prop := Inv State.reset

/-- Every step keeps the invariant, from every state that has it: memory stays canonical, Halted and Faulted stay exclusive, an
`in` waits only while Running and at a legal address, and a fault record is one its cause allows. The canonical form, the
fault as a next state and the field `waiting` are the model's (log entries 1, 4, 8). -/
def Obligations.StepKeepsInv : Prop := ∀ s t : State, Inv s → step s = .next t → Inv t

/-- The load (50_interfaces.md section 3; the refusals are the spec's decisions D18, D19, log entry 9): in the reset state, with
any lines ready, an image of at most 32768 words goes verbatim to the cells from 0, the rest stay 0 and nothing else changes;
a longer image, a second load and a load outside the reset state are refused. -/
def Obligations.LoadPlacesImage : Prop :=
  ∀ (image : List Word) (lines : List (List Word)) (draws : Nat),
    (image.length ≤ 32768 → ∃ t, load image { State.reset with lines := lines, draws := draws } = .next t ∧
      (∀ n, t.cell n = image.getD n 0) ∧ t = { State.reset with lines := lines, draws := draws, mem := t.mem, loaded := true } ∧
      ∀ again, load again t = .refused .loadOutsideReset) ∧
    (32768 < image.length → load image { State.reset with lines := lines, draws := draws } = .refused .imageTooLong) ∧
    ∀ s : State, s ≠ { State.reset with lines := s.lines, draws := s.draws } → load image s = .refused .loadOutsideReset

/-- Running is stepping: a run cut in two is the run (50_interfaces.md section 4; 40_step.md section 4). The cut after a number of
steps is the model's (log entry 22). -/
def Obligations.RunCutAnywhere : Prop :=
  ∀ (m n : Nat) (s : State),
    runFor (m + n) s = andThen (runFor m s) (runFor n) ∧
    (s.status = .running → runFor 1 s = step s) ∧ (s.status ≠ .running → runFor n s = .next s)
end

