-- ==== Sys2Proof/Laws/Memory.lean ====
section
/-! SUPPORT. The laws of memory: what a read gives after a write, and that every operation keeps the canonical form. -/

namespace Sys2Proof.Machine

theorem memGet_filter (m : Mem) (a b : Nat) :
    memGet (m.filter (fun e => decide (e.1 ≠ a))) b = if b = a then 0 else memGet m b := by
  induction m with
  | nil => simp [memGet]
  | cons e m ih =>
    obtain ⟨c, w⟩ := e
    by_cases hc : c = a
    · subst hc
      rw [List.filter_cons_of_neg (by simp), ih]
      by_cases hb : b = c <;> simp [memGet, hb]
    · rw [List.filter_cons_of_pos (by simpa using hc)]
      by_cases hb : b = c
      · subst hb
        simp [memGet, hc]
      · simp only [memGet, if_neg hb]
        exact ih

theorem memGet_memInsert (m : Mem) (a b : Nat) (v : Word) :
    memGet (memInsert m a v) b = if b = a then v else memGet m b := by
  induction m with
  | nil => simp [memInsert, memGet]
  | cons e m ih =>
    obtain ⟨c, w⟩ := e
    unfold memInsert
    split
    · simp [memGet]
    · split
      · subst_vars
        by_cases hb : b = c <;> simp [memGet, hb]
      · by_cases hb : b = c
        · subst hb
          have : b ≠ a := by omega
          simp [memGet, this]
        · simp [memGet, hb, ih]

/-- A read after a write: the cell written holds the word verbatim, every other cell is as before (rules R53, R65). -/
theorem memGet_memSet (m : Mem) (a b : Nat) (v : Word) :
    memGet (memSet m a v) b = if b = a then v else memGet m b := by
  unfold memSet
  split
  · subst_vars
    exact memGet_filter m a b
  · exact memGet_memInsert m a b v

/-- A run of writes: the cells `a .. a + length - 1` hold the words in order, every other cell is as before (rule R211). -/
theorem memGet_memSetAll (ws : List Word) (m : Mem) (a b : Nat) :
    memGet (memSetAll m a ws) b = if h : a ≤ b ∧ b - a < ws.length then ws[b - a]'h.2 else memGet m b := by
  induction ws generalizing m a with
  | nil => simp [memSetAll]
  | cons w ws ih =>
    rw [memSetAll, ih, memGet_memSet]
    by_cases h1 : b = a
    · subst h1
      simp [show ¬ (b + 1 ≤ b) by omega]
    · by_cases h2 : a + 1 ≤ b ∧ b - (a + 1) < ws.length
      · have h3 : a ≤ b ∧ b - a < (w :: ws).length := by simp; omega
        rw [dif_pos h2, dif_pos h3]
        have : b - a = (b - (a + 1)) + 1 := by omega
        simp [this]
      · have h3 : ¬ (a ≤ b ∧ b - a < (w :: ws).length) := by simp at h2 ⊢; omega
        rw [dif_neg h2, dif_neg h3, if_neg h1]

/-- What an overrunning line can leave (rule R214): below `a` and beyond the line nothing changes, and every other cell keeps
its old word or takes the line's. -/
theorem memGet_overrunFill (draw : Nat) (ws : List Word) (m : Mem) (a b : Nat) :
    memGet (overrunFill draw m a ws) b = memGet m b ∨
      ∃ h : a ≤ b ∧ b - a < ws.length, b < Config.memWords ∧ memGet (overrunFill draw m a ws) b = ws[b - a]'h.2 := by
  induction ws generalizing m a with
  | nil => simp [overrunFill]
  | cons w ws ih =>
    unfold overrunFill
    split
    · rename_i ha
      rcases ih (if Config.overrunTakesNew draw a = true then memSet m a w else m) (a + 1) with h | ⟨h, hb, e⟩
      · rw [h]
        split
        · rw [memGet_memSet]
          split
          · subst_vars
            exact Or.inr ⟨by simp, ha, by simp⟩
          · exact Or.inl rfl
        · exact Or.inl rfl
      · refine Or.inr ⟨by simp; omega, hb, ?_⟩
        rw [e]
        have : b - a = (b - (a + 1)) + 1 := by omega
        simp [this]
    · exact Or.inl rfl

/-! ### The canonical form -/

theorem memWfFrom_mono {lo lo' : Nat} {m : Mem} (h : memWfFrom lo m = true) (hl : lo' ≤ lo) : memWfFrom lo' m = true := by
  cases m with
  | nil => rfl
  | cons e m =>
    simp only [memWfFrom, Bool.and_eq_true, decide_eq_true_eq] at h ⊢
    exact ⟨⟨⟨by omega, h.1.1.2⟩, h.1.2⟩, h.2⟩

theorem memWfFrom_filter {lo : Nat} {m : Mem} (p : Nat × Word → Bool) (h : memWfFrom lo m = true) :
    memWfFrom lo (m.filter p) = true := by
  induction m generalizing lo with
  | nil => rfl
  | cons e m ih =>
    simp only [memWfFrom, Bool.and_eq_true, decide_eq_true_eq] at h
    by_cases hp : p e = true
    · rw [List.filter_cons_of_pos hp]
      simp only [memWfFrom, Bool.and_eq_true, decide_eq_true_eq]
      exact ⟨h.1, ih h.2⟩
    · rw [List.filter_cons_of_neg hp]
      exact ih (memWfFrom_mono h.2 (by omega))

theorem memWfFrom_memInsert {lo : Nat} {m : Mem} {a : Nat} {v : Word} (h : memWfFrom lo m = true) (hlo : lo ≤ a)
    (ha : a < Config.memWords) (hv : v ≠ 0) : memWfFrom lo (memInsert m a v) = true := by
  induction m generalizing lo with
  | nil =>
    simp only [memInsert, memWfFrom, Bool.and_eq_true, decide_eq_true_eq]
    exact ⟨⟨⟨hlo, ha⟩, hv⟩, trivial⟩
  | cons e m ih =>
    obtain ⟨b, w⟩ := e
    have h0 := h
    simp only [memWfFrom, Bool.and_eq_true, decide_eq_true_eq] at h
    unfold memInsert
    split
    · simp only [memWfFrom, Bool.and_eq_true, decide_eq_true_eq]
      exact ⟨⟨⟨hlo, ha⟩, hv⟩, ⟨⟨by omega, h.1.1.2⟩, h.1.2⟩, h.2⟩
    · split
      · subst_vars
        simp only [memWfFrom, Bool.and_eq_true, decide_eq_true_eq]
        exact ⟨⟨⟨hlo, ha⟩, hv⟩, h.2⟩
      · simp only [memWfFrom, Bool.and_eq_true, decide_eq_true_eq]
        exact ⟨h.1, ih h.2 (by omega)⟩

/-- A write to an address of the memory keeps the canonical form. -/
theorem memSet_wf {m : Mem} {a : Nat} (v : Word) (h : Memory.wf m = true) (ha : a < Config.memWords) :
    Memory.wf (memSet m a v) = true := by
  unfold Memory.wf at *
  unfold memSet
  split
  · exact memWfFrom_filter _ h
  · exact memWfFrom_memInsert h (Nat.zero_le a) ha ‹_›

/-- A run of writes inside the memory keeps the canonical form. -/
theorem memSetAll_wf {ws : List Word} {m : Mem} {a : Nat} (h : Memory.wf m = true)
    (ha : ws.length = 0 ∨ a + ws.length ≤ Config.memWords) : Memory.wf (memSetAll m a ws) = true := by
  induction ws generalizing m a with
  | nil => exact h
  | cons w ws ih =>
    simp only [List.length_cons] at ha
    exact ih (memSet_wf w h (by omega)) (by omega)

/-- An overrunning line keeps the canonical form. -/
theorem overrunFill_wf (draw : Nat) {ws : List Word} {m : Mem} {a : Nat} (h : Memory.wf m = true) :
    Memory.wf (overrunFill draw m a ws) = true := by
  induction ws generalizing m a with
  | nil => exact h
  | cons w ws ih =>
    unfold overrunFill
    split
    · refine ih ?_
      split
      · exact memSet_wf w h ‹_›
      · exact h
    · exact h

/-- In the canonical form no cell outside the address space is listed. -/
theorem memGet_of_ge {lo : Nat} {m : Mem} (h : memWfFrom lo m = true) {a : Nat} (ha : Config.memWords ≤ a) : memGet m a = 0 := by
  induction m generalizing lo with
  | nil => rfl
  | cons e m ih =>
    simp only [memWfFrom, Bool.and_eq_true, decide_eq_true_eq] at h
    obtain ⟨b, w⟩ := e
    rw [memGet, if_neg (by have := h.1.1.2; simp only at this; omega), ih h.2]

theorem reset_mem_wf : Memory.wf State.reset.mem = true := rfl

end Sys2Proof.Machine
end

