-- ==== Sys2Proof/Laws/State.lean ====
section
/-! SUPPORT. For each update of a state: what it does to each field, and to the reads `reg` and `cell`. -/

namespace Sys2Proof.Machine

@[simp] theorem State.setReg_regs (s : State) (k : Fin 8) (v : Word) : (s.setReg k v).regs = s.regs.set k.val v := rfl
@[simp] theorem State.setReg_pc (s : State) (k : Fin 8) (v : Word) : (s.setReg k v).pc = s.pc := rfl
@[simp] theorem State.setReg_mem (s : State) (k : Fin 8) (v : Word) : (s.setReg k v).mem = s.mem := rfl
@[simp] theorem State.setReg_stack (s : State) (k : Fin 8) (v : Word) : (s.setReg k v).stack = s.stack := rfl
@[simp] theorem State.setReg_halted (s : State) (k : Fin 8) (v : Word) : (s.setReg k v).halted = s.halted := rfl
@[simp] theorem State.setReg_fault (s : State) (k : Fin 8) (v : Word) : (s.setReg k v).fault = s.fault := rfl
@[simp] theorem State.setReg_out (s : State) (k : Fin 8) (v : Word) : (s.setReg k v).out = s.out := rfl
@[simp] theorem State.setReg_lines (s : State) (k : Fin 8) (v : Word) : (s.setReg k v).lines = s.lines := rfl
@[simp] theorem State.setReg_waiting (s : State) (k : Fin 8) (v : Word) : (s.setReg k v).waiting = s.waiting := rfl
@[simp] theorem State.setReg_loaded (s : State) (k : Fin 8) (v : Word) : (s.setReg k v).loaded = s.loaded := rfl
@[simp] theorem State.setReg_draws (s : State) (k : Fin 8) (v : Word) : (s.setReg k v).draws = s.draws := rfl
@[simp] theorem State.setReg_cell (s : State) (k : Fin 8) (v : Word) (a : Nat) : (s.setReg k v).cell a = s.cell a := rfl

@[simp] theorem State.push_regs (s : State) (v : Word) : (s.push v).regs = s.regs := rfl
@[simp] theorem State.push_pc (s : State) (v : Word) : (s.push v).pc = s.pc := rfl
@[simp] theorem State.push_mem (s : State) (v : Word) : (s.push v).mem = s.mem := rfl
@[simp] theorem State.push_stack (s : State) (v : Word) : (s.push v).stack = s.stack ++ [v] := rfl
@[simp] theorem State.push_halted (s : State) (v : Word) : (s.push v).halted = s.halted := rfl
@[simp] theorem State.push_fault (s : State) (v : Word) : (s.push v).fault = s.fault := rfl
@[simp] theorem State.push_out (s : State) (v : Word) : (s.push v).out = s.out := rfl
@[simp] theorem State.push_lines (s : State) (v : Word) : (s.push v).lines = s.lines := rfl
@[simp] theorem State.push_waiting (s : State) (v : Word) : (s.push v).waiting = s.waiting := rfl
@[simp] theorem State.push_loaded (s : State) (v : Word) : (s.push v).loaded = s.loaded := rfl
@[simp] theorem State.push_draws (s : State) (v : Word) : (s.push v).draws = s.draws := rfl
@[simp] theorem State.push_reg (s : State) (v : Word) (j : Fin 8) : (s.push v).reg j = s.reg j := rfl
@[simp] theorem State.push_cell (s : State) (v : Word) (a : Nat) : (s.push v).cell a = s.cell a := rfl

@[simp] theorem State.jump_regs (s : State) (t : Word) : (s.jump t).regs = s.regs := rfl
@[simp] theorem State.jump_pc (s : State) (t : Word) : (s.jump t).pc = t := rfl
@[simp] theorem State.jump_mem (s : State) (t : Word) : (s.jump t).mem = s.mem := rfl
@[simp] theorem State.jump_stack (s : State) (t : Word) : (s.jump t).stack = s.stack := rfl
@[simp] theorem State.jump_halted (s : State) (t : Word) : (s.jump t).halted = s.halted := rfl
@[simp] theorem State.jump_fault (s : State) (t : Word) : (s.jump t).fault = s.fault := rfl
@[simp] theorem State.jump_out (s : State) (t : Word) : (s.jump t).out = s.out := rfl
@[simp] theorem State.jump_lines (s : State) (t : Word) : (s.jump t).lines = s.lines := rfl
@[simp] theorem State.jump_waiting (s : State) (t : Word) : (s.jump t).waiting = s.waiting := rfl
@[simp] theorem State.jump_loaded (s : State) (t : Word) : (s.jump t).loaded = s.loaded := rfl
@[simp] theorem State.jump_draws (s : State) (t : Word) : (s.jump t).draws = s.draws := rfl
@[simp] theorem State.jump_reg (s : State) (t : Word) (j : Fin 8) : (s.jump t).reg j = s.reg j := rfl
@[simp] theorem State.jump_cell (s : State) (t : Word) (a : Nat) : (s.jump t).cell a = s.cell a := rfl

@[simp] theorem State.emit_regs (s : State) (v : Word) : (s.emit v).regs = s.regs := rfl
@[simp] theorem State.emit_pc (s : State) (v : Word) : (s.emit v).pc = s.pc := rfl
@[simp] theorem State.emit_mem (s : State) (v : Word) : (s.emit v).mem = s.mem := rfl
@[simp] theorem State.emit_stack (s : State) (v : Word) : (s.emit v).stack = s.stack := rfl
@[simp] theorem State.emit_halted (s : State) (v : Word) : (s.emit v).halted = s.halted := rfl
@[simp] theorem State.emit_fault (s : State) (v : Word) : (s.emit v).fault = s.fault := rfl
@[simp] theorem State.emit_out (s : State) (v : Word) : (s.emit v).out = s.out ++ [v] := rfl
@[simp] theorem State.emit_lines (s : State) (v : Word) : (s.emit v).lines = s.lines := rfl
@[simp] theorem State.emit_waiting (s : State) (v : Word) : (s.emit v).waiting = s.waiting := rfl
@[simp] theorem State.emit_loaded (s : State) (v : Word) : (s.emit v).loaded = s.loaded := rfl
@[simp] theorem State.emit_draws (s : State) (v : Word) : (s.emit v).draws = s.draws := rfl
@[simp] theorem State.emit_reg (s : State) (v : Word) (j : Fin 8) : (s.emit v).reg j = s.reg j := rfl
@[simp] theorem State.emit_cell (s : State) (v : Word) (a : Nat) : (s.emit v).cell a = s.cell a := rfl

@[simp] theorem State.raise_regs (s : State) (r : FaultRecord) : (s.raise r).regs = s.regs := rfl
@[simp] theorem State.raise_pc (s : State) (r : FaultRecord) : (s.raise r).pc = s.pc := rfl
@[simp] theorem State.raise_mem (s : State) (r : FaultRecord) : (s.raise r).mem = s.mem := rfl
@[simp] theorem State.raise_stack (s : State) (r : FaultRecord) : (s.raise r).stack = s.stack := rfl
@[simp] theorem State.raise_halted (s : State) (r : FaultRecord) : (s.raise r).halted = s.halted := rfl
@[simp] theorem State.raise_fault (s : State) (r : FaultRecord) : (s.raise r).fault = some r := rfl
@[simp] theorem State.raise_out (s : State) (r : FaultRecord) : (s.raise r).out = s.out := rfl
@[simp] theorem State.raise_lines (s : State) (r : FaultRecord) : (s.raise r).lines = s.lines := rfl
@[simp] theorem State.raise_waiting (s : State) (r : FaultRecord) : (s.raise r).waiting = s.waiting := rfl
@[simp] theorem State.raise_loaded (s : State) (r : FaultRecord) : (s.raise r).loaded = s.loaded := rfl
@[simp] theorem State.raise_draws (s : State) (r : FaultRecord) : (s.raise r).draws = s.draws := rfl
@[simp] theorem State.raise_reg (s : State) (r : FaultRecord) (j : Fin 8) : (s.raise r).reg j = s.reg j := rfl
@[simp] theorem State.raise_cell (s : State) (r : FaultRecord) (a : Nat) : (s.raise r).cell a = s.cell a := rfl

@[simp] theorem State.past_regs (s : State) (i : Instr) : (s.past i).regs = s.regs := rfl
@[simp] theorem State.past_pc (s : State) (i : Instr) : (s.past i).pc = s.pc + BitVec.ofNat 16 i.len := rfl
@[simp] theorem State.past_mem (s : State) (i : Instr) : (s.past i).mem = s.mem := rfl
@[simp] theorem State.past_stack (s : State) (i : Instr) : (s.past i).stack = s.stack := rfl
@[simp] theorem State.past_halted (s : State) (i : Instr) : (s.past i).halted = s.halted := rfl
@[simp] theorem State.past_fault (s : State) (i : Instr) : (s.past i).fault = s.fault := rfl
@[simp] theorem State.past_out (s : State) (i : Instr) : (s.past i).out = s.out := rfl
@[simp] theorem State.past_lines (s : State) (i : Instr) : (s.past i).lines = s.lines := rfl
@[simp] theorem State.past_waiting (s : State) (i : Instr) : (s.past i).waiting = s.waiting := rfl
@[simp] theorem State.past_loaded (s : State) (i : Instr) : (s.past i).loaded = s.loaded := rfl
@[simp] theorem State.past_draws (s : State) (i : Instr) : (s.past i).draws = s.draws := rfl
@[simp] theorem State.past_reg (s : State) (i : Instr) (j : Fin 8) : (s.past i).reg j = s.reg j := rfl
@[simp] theorem State.past_cell (s : State) (i : Instr) (a : Nat) : (s.past i).cell a = s.cell a := rfl

/-- Writing a register changes that register and no other (rule R20). -/
theorem State.setReg_reg (s : State) (k j : Fin 8) (v : Word) : (s.setReg k v).reg j = if j = k then v else s.reg j := by
  simp only [State.reg, State.setReg, Vector.getElem_set, Fin.ext_iff, eq_comm]

/-- Two states agree when every field does. -/
theorem State.ext_fields {s t : State} (h1 : s.regs = t.regs) (h2 : s.pc = t.pc) (h3 : s.mem = t.mem) (h4 : s.stack = t.stack)
    (h5 : s.halted = t.halted) (h6 : s.fault = t.fault) (h7 : s.out = t.out) (h8 : s.lines = t.lines)
    (h9 : s.waiting = t.waiting) (h10 : s.loaded = t.loaded) (h11 : s.draws = t.draws) : s = t := by
  cases s
  cases t
  simp_all

theorem State.status_faulted_iff (s : State) : s.status = .faulted ↔ s.fault.isSome = true := by
  unfold State.status
  split <;> simp_all
  split <;> simp

theorem State.status_running_iff (s : State) : s.status = .running ↔ s.fault = none ∧ s.halted = false := by
  unfold State.status
  cases s.fault <;> cases s.halted <;> simp

theorem State.status_halted_iff (s : State) : s.status = .halted ↔ s.fault = none ∧ s.halted = true := by
  unfold State.status
  cases s.fault <;> cases s.halted <;> simp

end Sys2Proof.Machine
end

