-- ==== Sys2Proof/Laws/Ops.lean ====
section
/-! SUPPORT. For each shared operation, once, everything it can do. -/

namespace Sys2Proof.Machine

/-! ### Faults and memory writes -/

/-- Taking a fault in an instruction changes nothing but the fault record (rules R123, R247). -/
theorem raiseIn_eq (i : Instr) (c : Fault) (addr : Option Word) (s : State) :
    raiseIn i c addr s =
      { s with fault := some ⟨c, s.pc - BitVec.ofNat 16 i.len, some i.opcode, i.args.map Arg.word, [], addr⟩ } := rfl

/-- A write inside the memory replaces one cell. -/
theorem memWrite_of_lt {addr : Word} (i : Instr) (v : Word) (s : State) (h : addr.toNat < Config.memWords) :
    memWrite i addr v s = { s with mem := memSet s.mem addr.toNat v } := if_pos h

/-- A write outside it raises AddressingError and writes nothing (rule R56). -/
theorem memWrite_of_ge {addr : Word} (i : Instr) (v : Word) (s : State) (h : ¬ addr.toNat < Config.memWords) :
    memWrite i addr v s = raiseIn i .addressingError (some addr) s := if_neg h

/-! ### Operands -/

theorem Arg.wf_lit {w : Word} : (Arg.lit w).wf = true ↔ w.toNat < Config.memWords := by simp [Arg.wf]

/-- A store to a well-formed destination: one cell or one register (rule R118). -/
theorem store_of_wf {a : Arg} (i : Instr) (v : Word) (s : State) (h : a.wf = true) :
    store i (dstTgt a) v s =
      match a with
      | .lit w => { s with mem := memSet s.mem w.toNat v }
      | .reg k => s.setReg k v := by
  cases a with
  | lit w => exact memWrite_of_lt i v s (Arg.wf_lit.mp h)
  | reg k => rfl

/-- Everything a store can do: write one cell of the memory, write one register, or raise AddressingError. -/
theorem store_cases (i : Instr) (a : Arg) (v : Word) (s : State) :
    (∃ w, a = .lit w ∧ w.toNat < Config.memWords ∧ store i (dstTgt a) v s = { s with mem := memSet s.mem w.toNat v }) ∨
    (∃ k, a = .reg k ∧ store i (dstTgt a) v s = s.setReg k v) ∨
    (∃ w, a = .lit w ∧ Config.memWords ≤ w.toNat ∧
      store i (dstTgt a) v s = raiseIn i .addressingError (some w) s) := by
  cases a with
  | lit w =>
    by_cases h : w.toNat < Config.memWords
    · exact .inl ⟨w, rfl, h, memWrite_of_lt i v s h⟩
    · exact .inr (.inr ⟨w, rfl, Nat.le_of_not_lt h, memWrite_of_ge i v s h⟩)
  | reg k => exact .inr (.inl ⟨k, rfl, rfl⟩)

/-- Everything a write of memory can do. -/
theorem memWrite_cases (i : Instr) (addr v : Word) (s : State) :
    (addr.toNat < Config.memWords ∧ memWrite i addr v s = { s with mem := memSet s.mem addr.toNat v }) ∨
    (Config.memWords ≤ addr.toNat ∧ memWrite i addr v s = raiseIn i .addressingError (some addr) s) := by
  by_cases h : addr.toNat < Config.memWords
  · exact .inl ⟨h, memWrite_of_lt i v s h⟩
  · exact .inr ⟨Nat.le_of_not_lt h, memWrite_of_ge i v s h⟩

/-- What a source operand reads does not depend on memory, stack, ports or `pc`. -/
theorem srcVal_congr {s t : State} (h : s.regs = t.regs) (a : Arg) : srcVal s a = srcVal t a := by
  cases a <;> simp [srcVal, State.reg, h]

theorem memRead_eq_some {m : Mem} {a : Nat} {v : Word} :
    memRead m a = some v ↔ a < Config.memWords ∧ memGet m a = v := by
  unfold memRead
  split <;> simp_all

theorem memRead_eq_none {m : Mem} {a : Nat} : memRead m a = none ↔ Config.memWords ≤ a := by
  unfold memRead
  split
  · exact ⟨fun h => (nomatch h), fun h => absurd ‹_› (Nat.not_lt.mpr h)⟩
  · exact ⟨fun _ => Nat.le_of_not_lt ‹_›, fun _ => rfl⟩

/-! ### The stack -/

/-- Everything a pop can do (rule R29). -/
theorem State.pop_cases (s : State) :
    (s.stack = [] ∧ s.pop = none) ∨ ∃ st v, s.stack = st ++ [v] ∧ s.pop = some (v, { s with stack := st }) := by
  rcases List.eq_nil_or_concat s.stack with h | ⟨st, v, h⟩
  · exact .inl ⟨h, by simp [State.pop, h]⟩
  · refine .inr ⟨st, v, by simpa using h, ?_⟩
    simp [State.pop, h]

theorem State.pop_of_append {s : State} {st : List Word} {v : Word} (h : s.stack = st ++ [v]) :
    s.pop = some (v, { s with stack := st }) := by
  simp [State.pop, h]

/-! ### The memory run of `in` -/

/-- Everything storing a line can do (rules R211, R214). -/
theorem takeLine_cases (a : Word) (line : List Word) (s : State) :
    ((line.length = 0 ∨ a.toNat + line.length ≤ Config.memWords) ∧
      takeLine a line s = { s with mem := memSetAll s.mem a.toNat line }) ∨
    (line.length ≠ 0 ∧ Config.memWords < a.toNat + line.length ∧
      takeLine a line s = raiseIn (.inp (.lit a)) .addressingError (some (firstBeyond a))
        { s with mem := overrunFill s.draws s.mem a.toNat line, draws := s.draws + 1 }) := by
  unfold takeLine
  split
  · exact .inl ⟨‹_›, rfl⟩
  · rename_i h
    exact .inr ⟨by omega, by omega, rfl⟩

theorem firstBeyond_ge (a : Word) : Config.memWords ≤ (firstBeyond a).toNat := by
  unfold firstBeyond
  split
  · decide
  · omega

/-- Everything waiting for a line can do (rule R212). -/
theorem awaitLine_cases (a : Word) (s : State) :
    (s.lines = [] ∧ awaitLine a s = { s with waiting := some a }) ∨
    ∃ line rest, s.lines = line :: rest ∧ awaitLine a s = takeLine a line { s with lines := rest, waiting := none } := by
  unfold awaitLine
  split
  · exact .inl ⟨‹_›, rfl⟩
  · exact .inr ⟨_, _, ‹_›, rfl⟩

end Sys2Proof.Machine
end

