-- ==== Sys2Proof/Laws/Step.lean ====
section
/-! SUPPORT. What the decoder, the fetch and the step can do. -/

namespace Sys2Proof.Machine

theorem toArg_wf (w : Word) : (toArg w).wf = true := by
  unfold toArg
  split
  · simpa [Arg.wf] using ‹_›
  · rfl

/-- Every row of the opcode table builds a well-formed instruction of its arity. -/
theorem opRow_build {op : Word} {row : OpRow} (h : opRow op = some row) (ws : List Word) :
    (row.build ws).wf = true ∧ (row.build ws).args.length = row.arity ∧ row.arity ≤ 3 := by
  unfold opRow at h
  split at h <;> first
    | (cases h; simp [Instr.wf, Instr.args, argAt, toArg_wf])
    | cases h

/-- Everything the decoder can answer. -/
theorem decode_cases (op : Word) (rest : List Word) :
    (opRow op = none ∧ decode (op :: rest) = .reject (.unknownOpcode op)) ∨
    ∃ row, opRow op = some row ∧
      ((rest.length < row.arity ∧ decode (op :: rest) = .reject (.cutShort op rest)) ∨
       (row.arity ≤ rest.length ∧ badArgs (rest.take row.arity) = [] ∧
          decode (op :: rest) = .instr (row.build (rest.take row.arity)) (rest.drop row.arity)) ∨
       (row.arity ≤ rest.length ∧ badArgs (rest.take row.arity) ≠ [] ∧
          decode (op :: rest) = .reject (.invalidArgument op (rest.take row.arity)))) := by
  cases h : opRow op with
  | none => exact .inl ⟨rfl, by simp only [decode, h]⟩
  | some row =>
    refine .inr ⟨row, rfl, ?_⟩
    simp only [decode, h]
    by_cases h1 : rest.length < row.arity
    · refine .inl ⟨h1, ?_⟩
      simp only [List.take_of_length_le (Nat.le_of_lt h1), if_pos h1]
    · have h2 : ¬ (rest.take row.arity).length < row.arity := by simp; omega
      simp only [if_neg h2]
      by_cases h3 : badArgs (rest.take row.arity) = []
      · exact .inr (.inl ⟨by omega, h3, if_pos h3⟩)
      · exact .inr (.inr ⟨by omega, h3, if_neg h3⟩)

/-- What is decoded is well formed. -/
theorem decode_wf {ws : List Word} {i : Instr} {rest : List Word} (h : decode ws = .instr i rest) : i.wf = true := by
  cases ws with
  | nil => cases h
  | cons op ws =>
    rcases decode_cases op ws with ⟨-, e⟩ | ⟨row, hr, ⟨-, e⟩ | ⟨-, -, e⟩ | ⟨-, -, e⟩⟩ <;> rw [e] at h <;> cases h
    exact (opRow_build hr _).1

/-- Looking ahead: the words from `a` on, as many as there are. -/
theorem fetchWords_length (m : Mem) (n a : Nat) : (fetchWords m n a).length = min n (Config.memWords - a) := by
  induction n generalizing a with
  | zero => simp [fetchWords]
  | succ n ih =>
    unfold fetchWords
    cases h : memRead m a with
    | none =>
      have := memRead_eq_none.mp h
      rw [List.length_nil]
      omega
    | some w =>
      have := (memRead_eq_some.mp h).1
      rw [List.length_cons, ih]
      omega

/-- Looking ahead reads the cells in order. -/
theorem fetchWords_getElem (m : Mem) (n a k : Nat) (h : k < (fetchWords m n a).length) :
    (fetchWords m n a)[k] = memGet m (a + k) := by
  induction n generalizing a k with
  | zero => simp [fetchWords] at h
  | succ n ih =>
    have hl := fetchWords_length m (n + 1) a
    have hm : memRead m a = some (memGet m a) := memRead_eq_some.mpr ⟨by omega, rfl⟩
    have hf : fetchWords m (n + 1) a = memGet m a :: fetchWords m n (a + 1) := by simp [fetchWords, hm]
    cases k with
    | zero => simp [hf]
    | succ k =>
      simp only [hf, List.getElem_cons_succ]
      rw [ih]
      congr 1
      omega

/-- Everything fetching can do: reject, leaving the state a fault leaves, or hand over a well-formed instruction. -/
theorem fetch_cases (s : State) :
    (∃ e, decodeAt s = .reject e ∧ fetch s = .stop (fetchFault e s)) ∨
    ∃ i rest, decodeAt s = .instr i rest ∧ i.wf = true ∧ fetch s = .run i (s.past i) := by
  unfold fetch
  cases h : decodeAt s with
  | reject e => exact .inl ⟨e, rfl, rfl⟩
  | instr i rest => exact .inr ⟨i, rest, rfl, decode_wf h, rfl⟩

/-- Everything a step that answers a next state can have done. -/
theorem step_cases {s t : State} (h : step s = .next t) :
    s.fault = none ∧
    ((s.halted = true ∧ t = s) ∨
     (s.halted = false ∧ ∃ a, s.waiting = some a ∧ t = awaitLine a s) ∨
     (s.halted = false ∧ s.waiting = none ∧ ∃ e, decodeAt s = .reject e ∧ t = fetchFault e s) ∨
     (s.halted = false ∧ s.waiting = none ∧ ∃ i rest, decodeAt s = .instr i rest ∧ i.wf = true ∧
        exec i (s.past i) = .next t)) := by
  unfold step at h
  split at h
  · cases h
  · rename_i hf
    refine ⟨hf, ?_⟩
    split at h
    · cases h
      exact .inl ⟨‹_›, rfl⟩
    · rename_i hh
      have hh : s.halted = false := by simpa using hh
      split at h
      · cases h
        exact .inr (.inl ⟨hh, _, ‹_›, rfl⟩)
      · rename_i hw
        rcases fetch_cases s with ⟨e, hd, he⟩ | ⟨i, rest, hd, hwf, he⟩ <;> rw [he] at h
        · cases h
          exact .inr (.inr (.inl ⟨hh, hw, e, hd, rfl⟩))
        · exact .inr (.inr (.inr ⟨hh, hw, i, rest, hd, hwf, h⟩))

end Sys2Proof.Machine
end

