-- ==== Sys2Proof/Laws/Exec.lean ====
section
/-! SUPPORT. Everything executing an instruction can do, said once. -/

namespace Sys2Proof.Machine

/-- What an executed instruction that answers a next state has done to `s`. -/
inductive Did (s : State) : Instr → State → Prop where
  /-- A result was stored in the destination operand. -/
  | stored (i : Instr) (a : Arg) (v : Word) (hi : i.dest = some a) (hp : ∀ b, i ≠ .pop b) : Did s i (store i (dstTgt a) v s)
  /-- `pop` took the top of the stack and stored it. -/
  | popped (a : Arg) (v : Word) (st : List Word) (hs : s.stack = st ++ [v]) :
      Did s (.pop a) (store (.pop a) (dstTgt a) v { s with stack := st })
  /-- `pop` or `ret` found the stack empty. -/
  | underflow (i : Instr) (hi : i = .ret ∨ ∃ a, i = .pop a) (hs : s.stack = []) : Did s i (raiseIn i .stackUnderflow none s)
  /-- `mod` had a zero divisor. -/
  | divideByZero (a b c : Arg) (hc : srcVal s c = 0) : Did s (.mod a b c) (raiseIn (.mod a b c) .divideByZero none s)
  /-- `rmem` had an address above 32767. -/
  | readBeyond (a b : Arg) (h : Config.memWords ≤ (srcVal s b).toNat) :
      Did s (.rmem a b) (raiseIn (.rmem a b) .addressingError (some (srcVal s b)) s)
  /-- `wmem` wrote. -/
  | wrote (a b : Arg) : Did s (.wmem a b) (memWrite (.wmem a b) (waddr a) (srcVal s b) s)
  /-- `halt`. -/
  | halted : Did s .halt { s with halted := true }
  /-- `noop`, or a conditional jump not taken. -/
  | nothing (i : Instr) (hi : i = .noop ∨ ∃ a b, i = .jnz a b ∨ i = .jez a b) : Did s i s
  /-- A jump taken. -/
  | jumped (i : Instr) (v : Word) (hi : (∃ a, i = .jmp a) ∨ ∃ a b, i = .jnz a b ∨ i = .jez a b) : Did s i (s.jump v)
  /-- `push`. -/
  | pushed (a : Arg) : Did s (.push a) (s.push (srcVal s a))
  /-- `call`. -/
  | called (a : Arg) : Did s (.call a) ((s.push s.pc).jump (srcVal s a))
  /-- `ret` took the top of the stack. -/
  | returned (v : Word) (st : List Word) (hs : s.stack = st ++ [v]) : Did s .ret (State.jump { s with stack := st } v)
  /-- `out`. -/
  | emitted (a : Arg) : Did s (.out a) (s.emit (srcVal s a))
  /-- `in` read a line or waits. -/
  | awaited (w : Word) : Did s (.inp (.lit w)) (awaitLine w s)

/-- Everything executing an instruction can do, when it answers a next state. -/
theorem exec_did {i : Instr} {s t : State} (h : exec i s = .next t) : Did s i t := by
  cases i
  case pop a =>
    simp only [exec, execPop] at h
    rcases s.pop_cases with ⟨hs, e⟩ | ⟨st, v, hs, e⟩ <;> rw [e] at h <;> cases h
    · exact .underflow _ (.inr ⟨a, rfl⟩) hs
    · exact .popped a v st hs
  case ret =>
    simp only [exec, execRet] at h
    rcases s.pop_cases with ⟨hs, e⟩ | ⟨st, v, hs, e⟩ <;> rw [e] at h <;> cases h
    · exact .underflow _ (.inl rfl) hs
    · exact .returned v st hs
  case mod a b c =>
    simp only [exec, execMod] at h
    split at h <;> cases h
    · exact .divideByZero a b c (by simpa [isZero] using ‹isZero (srcVal s c) = true›)
    · exact .stored _ a _ rfl (by simp)
  case rmem a b =>
    simp only [exec, execRmem] at h
    cases e : memRead s.mem (srcVal s b).toNat <;> rw [e] at h <;> cases h
    · exact .readBeyond a b (memRead_eq_none.mp e)
    · exact .stored _ a _ rfl (by simp)
  case inp a =>
    cases a <;> cases h
    exact .awaited _
  case jnz a b =>
    simp only [exec, execJnz] at h
    split at h <;> cases h
    · exact .nothing _ (.inr ⟨a, b, .inl rfl⟩)
    · exact .jumped _ _ (.inr ⟨a, b, .inl rfl⟩)
  case jez a b =>
    simp only [exec, execJez] at h
    split at h <;> cases h
    · exact .jumped _ _ (.inr ⟨a, b, .inr rfl⟩)
    · exact .nothing _ (.inr ⟨a, b, .inr rfl⟩)
  case jmp a =>
    cases h
    exact .jumped _ _ (.inl ⟨a, rfl⟩)
  case noop =>
    cases h
    exact .nothing _ (.inl rfl)
  all_goals
    cases h
    first
    | exact .stored _ _ _ rfl (by simp)
    | exact .wrote _ _
    | exact .halted
    | exact .pushed _
    | exact .called _
    | exact .emitted _

end Sys2Proof.Machine
end

