-- ==== Sys2Proof/Laws/PerInstr.lean ====
section
/-! SUPPORT. The family EncodedLength: the words of an instruction, per constructor (rules R80, R85). -/

/-- The encoding has 1 to 4 words, one more than there are arguments, and begins with an opcode word of 0..21. -/
def Sys2Proof.Laws.EncodedLength.Statement (i : Sys2Proof.Instr) : Prop :=
  (Sys2Proof.encode i).length = i.len ∧ 1 ≤ i.len ∧ i.len ≤ 4 ∧ (Sys2Proof.encode i).head? = some i.opcode ∧ i.opcode.toNat ≤ 21

theorem Sys2Proof.Laws.EncodedLength.halt : Statement .halt := by
  refine ⟨rfl, ?_, ?_, rfl, ?_⟩ <;> decide

theorem Sys2Proof.Laws.EncodedLength.set (a b : Sys2Proof.Arg) : Statement (.set a b) :=
  ⟨rfl, Nat.le_add_right 1 2, Nat.le_of_ble_eq_true rfl, rfl, Nat.le_of_ble_eq_true rfl⟩

theorem Sys2Proof.Laws.EncodedLength.push (a : Sys2Proof.Arg) : Statement (.push a) :=
  ⟨rfl, Nat.le_add_right 1 1, Nat.le_of_ble_eq_true rfl, rfl, Nat.le_of_ble_eq_true rfl⟩

theorem Sys2Proof.Laws.EncodedLength.pop (a : Sys2Proof.Arg) : Statement (.pop a) :=
  ⟨rfl, Nat.le_add_right 1 1, Nat.le_of_ble_eq_true rfl, rfl, Nat.le_of_ble_eq_true rfl⟩

theorem Sys2Proof.Laws.EncodedLength.eq (a b c : Sys2Proof.Arg) : Statement (.eq a b c) :=
  ⟨rfl, Nat.le_add_right 1 3, Nat.le_of_ble_eq_true rfl, rfl, Nat.le_of_ble_eq_true rfl⟩

theorem Sys2Proof.Laws.EncodedLength.gt (a b c : Sys2Proof.Arg) : Statement (.gt a b c) :=
  ⟨rfl, Nat.le_add_right 1 3, Nat.le_of_ble_eq_true rfl, rfl, Nat.le_of_ble_eq_true rfl⟩

theorem Sys2Proof.Laws.EncodedLength.jmp (a : Sys2Proof.Arg) : Statement (.jmp a) :=
  ⟨rfl, Nat.le_add_right 1 1, Nat.le_of_ble_eq_true rfl, rfl, Nat.le_of_ble_eq_true rfl⟩

theorem Sys2Proof.Laws.EncodedLength.jnz (a b : Sys2Proof.Arg) : Statement (.jnz a b) :=
  ⟨rfl, Nat.le_add_right 1 2, Nat.le_of_ble_eq_true rfl, rfl, Nat.le_of_ble_eq_true rfl⟩

theorem Sys2Proof.Laws.EncodedLength.jez (a b : Sys2Proof.Arg) : Statement (.jez a b) :=
  ⟨rfl, Nat.le_add_right 1 2, Nat.le_of_ble_eq_true rfl, rfl, Nat.le_of_ble_eq_true rfl⟩

theorem Sys2Proof.Laws.EncodedLength.add (a b c : Sys2Proof.Arg) : Statement (.add a b c) :=
  ⟨rfl, Nat.le_add_right 1 3, Nat.le_of_ble_eq_true rfl, rfl, Nat.le_of_ble_eq_true rfl⟩

theorem Sys2Proof.Laws.EncodedLength.mul (a b c : Sys2Proof.Arg) : Statement (.mul a b c) :=
  ⟨rfl, Nat.le_add_right 1 3, Nat.le_of_ble_eq_true rfl, rfl, Nat.le_of_ble_eq_true rfl⟩

theorem Sys2Proof.Laws.EncodedLength.mod (a b c : Sys2Proof.Arg) : Statement (.mod a b c) :=
  ⟨rfl, Nat.le_add_right 1 3, Nat.le_of_ble_eq_true rfl, rfl, Nat.le_of_ble_eq_true rfl⟩

theorem Sys2Proof.Laws.EncodedLength.and (a b c : Sys2Proof.Arg) : Statement (.and a b c) :=
  ⟨rfl, Nat.le_add_right 1 3, Nat.le_of_ble_eq_true rfl, rfl, Nat.le_of_ble_eq_true rfl⟩

theorem Sys2Proof.Laws.EncodedLength.or (a b c : Sys2Proof.Arg) : Statement (.or a b c) :=
  ⟨rfl, Nat.le_add_right 1 3, Nat.le_of_ble_eq_true rfl, rfl, Nat.le_of_ble_eq_true rfl⟩

theorem Sys2Proof.Laws.EncodedLength.not (a b : Sys2Proof.Arg) : Statement (.not a b) :=
  ⟨rfl, Nat.le_add_right 1 2, Nat.le_of_ble_eq_true rfl, rfl, Nat.le_of_ble_eq_true rfl⟩

theorem Sys2Proof.Laws.EncodedLength.rmem (a b : Sys2Proof.Arg) : Statement (.rmem a b) :=
  ⟨rfl, Nat.le_add_right 1 2, Nat.le_of_ble_eq_true rfl, rfl, Nat.le_of_ble_eq_true rfl⟩

theorem Sys2Proof.Laws.EncodedLength.wmem (a b : Sys2Proof.Arg) : Statement (.wmem a b) :=
  ⟨rfl, Nat.le_add_right 1 2, Nat.le_of_ble_eq_true rfl, rfl, Nat.le_of_ble_eq_true rfl⟩

theorem Sys2Proof.Laws.EncodedLength.call (a : Sys2Proof.Arg) : Statement (.call a) :=
  ⟨rfl, Nat.le_add_right 1 1, Nat.le_of_ble_eq_true rfl, rfl, Nat.le_of_ble_eq_true rfl⟩

theorem Sys2Proof.Laws.EncodedLength.ret : Statement .ret := by
  refine ⟨rfl, ?_, ?_, rfl, ?_⟩ <;> decide

theorem Sys2Proof.Laws.EncodedLength.out (a : Sys2Proof.Arg) : Statement (.out a) :=
  ⟨rfl, Nat.le_add_right 1 1, Nat.le_of_ble_eq_true rfl, rfl, Nat.le_of_ble_eq_true rfl⟩

theorem Sys2Proof.Laws.EncodedLength.inp (a : Sys2Proof.Arg) : Statement (.inp a) :=
  ⟨rfl, Nat.le_add_right 1 1, Nat.le_of_ble_eq_true rfl, rfl, Nat.le_of_ble_eq_true rfl⟩

theorem Sys2Proof.Laws.EncodedLength.noop : Statement .noop := by
  refine ⟨rfl, ?_, ?_, rfl, ?_⟩ <;> decide
end

