-- ==== Sys2Proof/Tests/Slice0.lean ====
section
/-! SUPPORT. Tests: expected results come from spec/95_test_vectors.md (S, V and P numbers) or are worked out by hand from the
rule named. One step each, on a small state. -/

namespace Sys2Proof.Tests

open Sys2Proof.Machine

/-! ### Helpers -/

/-- Reset, with words placed from an address on and `pc` there. -/
def placed (a : Nat) (ws : List Word) : State :=
  { State.reset with mem := memSetAll [] a ws, pc := BitVec.ofNat 16 a }

/-- Reset, with words placed from address 0 on. -/
def at0 (ws : List Word) : State := placed 0 ws

/-- The same state with a register set. -/
def withReg (k : Fin 8) (v : Word) (s : State) : State := s.setReg k v

/-- The same state with a stack. -/
def withStack (st : List Word) (s : State) : State := { s with stack := st }

/-- The same state with lines the host has supplied. -/
def withLines (ls : List (List Word)) (s : State) : State := { s with lines := ls }

/-- What one reads of the next state, if there is one. -/
def after {α : Type} (f : State → α) (o : Host.Outcome State Fault Refusal) : Option α :=
  match o with
  | .next t => some (f t)
  | .fault _ => none
  | .refused _ => none

/-- The refusal a step ends in, if it does. -/
def refusal (o : Host.Outcome State Fault Refusal) : Option Refusal :=
  match o with
  | .refused r => some r
  | .next _ => none
  | .fault _ => none

/-- What the host sees of a fault: `pc`, the cause's code, `fault_pc`, the offending positions and the address. -/
structure FaultView where
  pc : Word
  code : Nat
  faultPc : Word
  bad : List Nat
  addr : Option Word
deriving DecidableEq

/-- The fault of a state, if it has one. -/
def faultView (t : State) : Option FaultView := t.fault.map (fun r => ⟨t.pc, causeCode t.fault, r.faultPc, r.badArgs, r.addr⟩)

/-! ### Well-formedness: the one check (a literal is 0..32767, rule R83), in every position of every instruction -/

theorem test_wf_accepts :
    [Instr.set (.reg 7) (.lit 32767), .eq (.lit 0) (.lit 32767) (.reg 0), .halt, .inp (.lit 0)].all Instr.wf = true := by decide

theorem test_wf_refuses_one_argument :
    [Instr.push, .pop, .jmp, .call, .out, .inp].all (fun f => !(f (.lit 32768)).wf) = true := by decide

theorem test_wf_refuses_two_arguments :
    [Instr.set, .jnz, .jez, .not, .rmem, .wmem].all
      (fun f => !(f (.lit 32768) (.reg 0)).wf && !(f (.reg 0) (.lit 65535)).wf) = true := by decide

theorem test_wf_refuses_three_arguments :
    [Instr.eq, .gt, .add, .mul, .mod, .and, .or].all
      (fun f => !(f (.lit 32768) (.reg 0) (.lit 1)).wf && !(f (.reg 0) (.lit 40000) (.lit 1)).wf &&
        !(f (.reg 0) (.lit 1) (.lit 65535)).wf) = true := by decide

/-! ### Decoding: the words written out from rules R82, R83, one theorem per constructor -/

theorem test_decode_halt : decode [0b0000000000000000] = .instr .halt [] := by decide
theorem test_decode_set :
    decode [0b0000000000000001, 0b1000000000000010, 0b0000010011010010] = .instr (.set (.reg 2) (.lit 1234)) [] := by decide
theorem test_decode_push : decode [0b0000000000000010, 0b0000000000000111] = .instr (.push (.lit 7)) [] := by decide
theorem test_decode_pop : decode [0b0000000000000011, 0b1000000000000001] = .instr (.pop (.reg 1)) [] := by decide
theorem test_decode_eq :
    decode [0b0000000000000100, 0b1000000000000000, 0b0000000000000111, 0b0000000000001000] =
      .instr (.eq (.reg 0) (.lit 7) (.lit 8)) [] := by decide
theorem test_decode_gt :
    decode [0b0000000000000101, 0b0000000000110010, 0b0000000000000001, 0b0000000000000000] =
      .instr (.gt (.lit 50) (.lit 1) (.lit 0)) [] := by decide
theorem test_decode_jmp : decode [0b0000000000000110, 0b1000000000000000] = .instr (.jmp (.reg 0)) [] := by decide
theorem test_decode_jnz :
    decode [0b0000000000000111, 0b1000000000000000, 0b0000000000000110] = .instr (.jnz (.reg 0) (.lit 6)) [] := by decide
theorem test_decode_jez :
    decode [0b0000000000001000, 0b0000000000000000, 0b1000000000000001] = .instr (.jez (.lit 0) (.reg 1)) [] := by decide
theorem test_decode_add :
    decode [0b0000000000001001, 0b1000000000000000, 0b0000000000000100, 0b0000000000000101, 19, 32768, 0] =
      .instr (.add (.reg 0) (.lit 4) (.lit 5)) [19, 32768, 0] := by decide
theorem test_decode_mul :
    decode [0b0000000000001010, 0b1000000000000001, 0b0000000000000110, 0b0000000000000111] =
      .instr (.mul (.reg 1) (.lit 6) (.lit 7)) [] := by decide
theorem test_decode_mod :
    decode [0b0000000000001011, 0b1000000000000000, 0b0000000000010001, 0b0000000000000101] =
      .instr (.mod (.reg 0) (.lit 17) (.lit 5)) [] := by decide
theorem test_decode_and :
    decode [0b0000000000001100, 0b1000000000000100, 0b1000000000000001, 0b0000000000001100] =
      .instr (.and (.reg 4) (.reg 1) (.lit 12)) [] := by decide
theorem test_decode_or :
    decode [0b0000000000001101, 0b1000000000000101, 0b1000000000000001, 0b0000000000000110] =
      .instr (.or (.reg 5) (.reg 1) (.lit 6)) [] := by decide
theorem test_decode_not :
    decode [0b0000000000001110, 0b1000000000000110, 0b0101010101010101] = .instr (.not (.reg 6) (.lit 21845)) [] := by decide
theorem test_decode_rmem :
    decode [0b0000000000001111, 0b0000000011001000, 0b1000000000000011] = .instr (.rmem (.lit 200) (.reg 3)) [] := by decide
theorem test_decode_wmem :
    decode [0b0000000000010000, 0b1000000000000111, 0b0000000000000001] = .instr (.wmem (.reg 7) (.lit 1)) [] := by decide
theorem test_decode_call : decode [0b0000000000010001, 0b0111111111111111] = .instr (.call (.lit 32767)) [] := by decide
theorem test_decode_ret : decode [0b0000000000010010] = .instr .ret [] := by decide
theorem test_decode_out : decode [0b0000000000010011, 0b1000000000000111] = .instr (.out (.reg 7)) [] := by decide
theorem test_decode_in : decode [0b0000000000010100, 0b0111111111111110] = .instr (.inp (.lit 32766)) [] := by decide
theorem test_decode_noop : decode [0b0000000000010101, 22] = .instr .noop [22] := by decide

/-- The words 22, 256 and 32768 are no opcodes (V98, V100, V101); 32776 is no argument (V102); nothing is no instruction. -/
theorem test_decode_rejects :
    decode [22] = .reject (.unknownOpcode 22) ∧ decode [256] = .reject (.unknownOpcode 256) ∧
    decode [32768] = .reject (.unknownOpcode 32768) ∧
    decode [1, 32768, 32776] = .reject (.invalidArgument 1 [32768, 32776]) ∧
    decode [1, 32768] = .reject (.cutShort 1 [32768]) ∧ decode [] = .reject .noOpcode := by decide

/-- The opcode table's numbering: the second word is bits 31..16; bits above `nbits` are 0. -/
theorem test_table_word :
    decodeTableWord 16 9 = some (.add (.lit 0) (.lit 0) (.lit 0)) ∧
    decodeTableWord 48 0x04D280020001 = some (.set (.reg 2) (.lit 1234)) ∧
    decodeTableWord 16 0x80000016 = none := by decide

/-! ### Instructions -/

/-- V1. -/
theorem test_halt : after (fun t => (t.pc, t.halted, t.status)) (step (at0 [0])) = some (1, true, .halted) := by decide
/-- V3. -/
theorem test_noop_last_cell : after (fun t => (t.pc, t.status)) (step (placed 32767 [21])) = some (32768, .running) := by decide
/-- V5. -/
theorem test_set_verbatim :
    after (fun t => (t.reg 0, t.pc)) (step (withReg 1 40000 (at0 [1, 32768, 32769]))) = some (40000, 3) := by decide
/-- V8. -/
theorem test_set_own_word : after (fun t => (t.cell 1, t.pc)) (step (at0 [1, 1, 21])) = some (21, 3) := by decide
/-- V11. -/
theorem test_push : after (fun t => (t.stack, t.pc)) (step (withReg 0 65535 (withStack [1] (at0 [2, 32768])))) =
    some ([1, 65535], 2) := by decide
/-- V12. -/
theorem test_pop : after (fun t => (t.reg 1, t.stack, t.pc)) (step (withStack [5, 9] (at0 [3, 32769]))) =
    some (9, [5], 2) := by decide
/-- V14, S9. -/
theorem test_pop_empty : after (fun t => (faultView t, t.reg 0)) (step (at0 [3, 32768])) =
    some (some ⟨2, 4, 0, [], none⟩, 0) := by decide
/-- V17. -/
theorem test_eq_same : after (fun t => t.reg 0) (step (withReg 0 5 (at0 [4, 32768, 32768, 32768]))) = some 1 := by decide
/-- V18. -/
theorem test_eq_full_word : after (fun t => t.reg 0) (step (withReg 0 9 (withReg 1 32768 (at0 [4, 32768, 32769, 0])))) =
    some 0 := by decide
/-- V22. -/
theorem test_gt_unsigned : after (fun t => t.reg 0) (step (withReg 1 32768 (at0 [5, 32768, 32769, 32767]))) = some 1 := by decide
/-- V21. -/
theorem test_gt_equal : after (fun t => t.reg 1) (step (withReg 1 9 (at0 [5, 32769, 3, 3]))) = some 0 := by decide
/-- V25. -/
theorem test_jmp : after State.pc (step (withReg 0 1000 (at0 [6, 32768]))) = some 1000 := by decide
/-- V26: the target is not checked when the jump executes. -/
theorem test_jmp_unchecked : after (fun t => (t.pc, t.status)) (step (withReg 0 40000 (at0 [6, 32768]))) = some (40000, .running) := by decide
/-- V29. -/
theorem test_jnz_bit15 : after State.pc (step (withReg 0 32768 (at0 [7, 32768, 6]))) = some 6 := by decide
/-- V28. -/
theorem test_jnz_not_taken : after State.pc (step (placed 14 [7, 32768, 6])) = some 17 := by decide
/-- V32. -/
theorem test_jez_taken : after State.pc (step (withReg 1 77 (at0 [8, 0, 32769]))) = some 77 := by decide
/-- V31. -/
theorem test_jez_not_taken : after State.pc (step (withReg 0 1 (at0 [8, 32768, 100]))) = some 3 := by decide
/-- V39. -/
theorem test_add_wraps : after (fun t => (t.reg 0, t.pc))
    (step (withReg 1 65535 (withReg 2 65535 (at0 [9, 32768, 32769, 32770])))) = some (32766, 4) := by decide
/-- V41. -/
theorem test_add_to_memory : after (fun t => t.cell 300) (step (at0 [9, 300, 1, 2])) = some 3 := by decide
/-- V48. -/
theorem test_mul_wide : after (fun t => t.reg 0)
    (step (withReg 1 65535 (withReg 2 65535 (at0 [10, 32768, 32769, 32770])))) = some 1 := by decide
/-- V44. -/
theorem test_mul : after (fun t => t.reg 1) (step (at0 [10, 32769, 181, 182])) = some 174 := by decide
/-- V56. -/
theorem test_mod_reduced : after (fun t => t.reg 0)
    (step (withReg 1 40000 (withReg 2 50000 (at0 [11, 32768, 32769, 32770])))) = some 7232 := by decide
/-- V55. -/
theorem test_mod_zero : after (fun t => (faultView t, t.reg 0)) (step (withReg 0 9 (at0 [11, 32768, 0, 0]))) =
    some (some ⟨4, 5, 0, [], none⟩, 9) := by decide
/-- V62. -/
theorem test_and_bit15 : after (fun t => t.reg 0)
    (step (withReg 1 65535 (withReg 2 49152 (at0 [12, 32768, 32769, 32770])))) = some 16384 := by decide
/-- V65. -/
theorem test_or_bit15 : after (fun t => t.reg 0) (step (withReg 1 32768 (at0 [13, 32768, 32769, 1]))) = some 1 := by decide
/-- V64. -/
theorem test_or : after (fun t => t.reg 0) (step (at0 [13, 32768, 21845, 10922])) = some 32767 := by decide
/-- V69. -/
theorem test_not_bit15 : after (fun t => (t.reg 0, t.pc)) (step (withReg 1 40000 (at0 [14, 32768, 32769]))) =
    some (25535, 3) := by decide
/-- V68. -/
theorem test_not : after (fun t => t.reg 0) (step (at0 [14, 32768, 21845])) = some 10922 := by decide
/-- V75. -/
theorem test_rmem_own_word : after (fun t => (t.reg 0, t.pc)) (step (at0 [15, 32768, 1])) = some (32768, 3) := by decide
/-- V76. -/
theorem test_rmem_beyond : after (fun t => (faultView t, t.reg 0)) (step (withReg 1 32768 (at0 [15, 32768, 32769]))) =
    some (some ⟨3, 3, 0, [], some 32768⟩, 0) := by decide
/-- V79. -/
theorem test_wmem_index : after (fun t => (t.cell 3, t.cell 500, t.reg 3)) (step (withReg 3 500 (at0 [16, 32771, 65]))) =
    some (65, 0, 500) := by decide
/-- V80. -/
theorem test_wmem_verbatim : after (fun t => t.cell 100) (step (withReg 1 40000 (at0 [16, 100, 32769]))) = some 40000 := by decide
/-- V84. -/
theorem test_call : after (fun t => (t.stack, t.pc)) (step (withStack [7] (withReg 0 50 (placed 10 [17, 32768])))) =
    some ([7, 12], 50) := by decide
/-- V85. -/
theorem test_call_end : after (fun t => (t.stack, t.pc)) (step (placed 32766 [17, 0])) = some ([32768], 0) := by decide
/-- V88. -/
theorem test_ret : after (fun t => (t.stack, t.pc, t.status)) (step (withStack [1, 40000] (at0 [18]))) =
    some ([1], 40000, .running) := by decide
/-- V87. -/
theorem test_ret_empty : after (fun t => (faultView t, t.halted, t.status)) (step (at0 [18])) =
    some (some ⟨1, 4, 0, [], none⟩, false, .faulted) := by decide
/-- V92. -/
theorem test_out_verbatim : after (fun t => (t.out, t.pc)) (step (withReg 0 40000 (at0 [19, 32768]))) = some ([40000], 2) := by decide
/-- R226: words are appended in program order. -/
theorem test_out_order : after State.out (step { at0 [19, 65] with out := [7] }) = some [7, 65] := by decide
/-- V93, and V95: a line that ends exactly at the last cell. -/
theorem test_in :
    after (fun t => (t.cell 100, t.cell 101, t.cell 102, t.pc, t.lines))
      (step (withLines [[104, 105], [1]] (at0 [20, 100]))) = some (104, 105, 0, 2, [[1]]) ∧
    after (fun t => (t.cell 32766, t.cell 32767, t.status))
      (step (withLines [[65, 66]] (placed 100 [20, 32766]))) = some (65, 66, .running) := by decide
/-- V114: no line; V96: one word too many (cells 32766 and 32767 are free values, so only the rest is looked at); V113: a register. -/
theorem test_in_ends :
    after (fun t => (t.pc, t.status, t.waiting)) (step (at0 [20, 100])) = some (2, .running, some 100) ∧
    after (fun t => (faultView t, t.lines)) (step (withLines [[65, 66, 67]] (at0 [20, 32766]))) =
      some (some ⟨2, 3, 0, [], some 32768⟩, []) ∧
    refusal (step (at0 [20, 32768])) = some .inRegisterDest := by decide

/-! ### The common step -/

/-- V103. -/
theorem test_bad_args : after faultView (step (at0 [9, 40000, 1, 50000])) = some (some ⟨4, 2, 0, [1, 3], none⟩) := by decide
/-- V106. -/
theorem test_unknown_last_cell : after faultView (step (placed 32767 [22])) = some (some ⟨32768, 1, 32767, [], none⟩) := by decide
/-- V107: the fetch fault wins over the invalid argument. -/
theorem test_cut_short : after faultView (step (placed 32766 [9, 40000])) =
    some (some ⟨32768, 3, 32766, [], some 32768⟩) := by decide
/-- V109: validation comes before the instruction's own fault. -/
theorem test_validation_first : after faultView (step (at0 [3, 40000])) = some (some ⟨2, 2, 0, [1], none⟩) := by decide
/-- V111. -/
theorem test_pc_beyond : after faultView (step { State.reset with pc := 65535 }) =
    some (some ⟨65535, 3, 65535, [], some 65535⟩) := by decide
/-- R225: a step of a Halted machine does nothing. -/
theorem test_halted_stays : after State.pc (step { at0 [21] with halted := true }) = some 0 := by decide
/-- P8: the empty image halts at once. -/
theorem test_reset_step : after (fun t => (t.pc, t.status)) (step State.reset) = some (1, .halted) := by decide
/-- The placed word is the one that runs. -/
theorem test_with_fetch_word : after State.out (step (State.reset.withFetchWord 32 0x00410013)) = some [65] := by decide
/-- R222: the image goes to the cells from 0 on. -/
theorem test_load : after (fun t => (t.cell 0, t.cell 1, t.cell 2)) (load [9, 32768] State.reset) = some (9, 32768, 0) := by decide
/-- R223: a second load is refused, even after an image of zeros. -/
theorem test_load_twice : refusal (load [1] { State.reset with loaded := true }) = some .loadOutsideReset := by decide
/-- R249: writing 0 takes the cell out of the list, so equal memories are equal data. -/
theorem test_canonical : memSet (memSet [] 5 7) 5 0 = [] ∧ memSetAll [] 3 [1, 0, 2] = [(3, 1), (5, 2)] := by decide

/-! ### Witnesses: for each statement with hypotheses, a state and operands that meet all of them together, at the boundary
values of each clause -/

open Sys2Proof.Claims

theorem witness_DecodeOfEncode : (Instr.add (.reg 7) (.lit 32767) (.lit 0)).wf = true := by decide
theorem witness_EncodeOfDecode : decode [1, 32775, 32767, 22] = .instr (.set (.reg 7) (.lit 32767)) [22] := by decide
theorem witness_OpcodeIsWholeWord :
    21 < (22 : Word).toNat ∧ decode [21] = .instr .noop [] ∧ decode [0] = .instr .halt [] := by decide
theorem witness_LengthFixedByOpcode : decode [21] = .instr .noop [] ∧ decode [9, 1, 2, 3, 4] =
    .instr (.add (.lit 1) (.lit 2) (.lit 3)) [4] ∧ 21 < (22 : Word).toNat := by decide
theorem witness_SourceOperandValue :
    (32767 : Word).toNat ≤ 32767 ∧ (32768 : Word).toNat = 32768 + (0 : Fin 8).val ∧
    (32775 : Word).toNat = 32768 + (7 : Fin 8).val := by decide
theorem witness_DestinationStoreExact :
    (0 : Word).toNat ≤ 32767 ∧ (32767 : Word).toNat ≤ 32767 ∧ (32768 : Word).toNat = 32768 + (0 : Fin 8).val := by decide
theorem witness_HaltStops : State.reset.fault = none := rfl
theorem witness_SetStoresSource : (Arg.lit 32767).wf = true ∧ (Arg.reg 7).wf = true := by decide
theorem witness_PopTakesTop : (Arg.lit 200).wf = true ∧ (withStack [5, 9] State.reset).stack = [5] ++ [9] := by decide
theorem witness_EmptyStackUnderflows : State.reset.stack = [] := rfl
theorem witness_EqStoresTruth : (Arg.lit 0).wf = true ∧ (Arg.reg 0).wf = true := by decide
theorem witness_GtStoresTruth : (Arg.lit 50).wf = true ∧ (Arg.reg 0).wf = true := by decide
theorem witness_AddStoresSum : (Arg.lit 300).wf = true ∧ (Arg.reg 0).wf = true := by decide
theorem witness_MulStoresProduct : (Arg.lit 1).wf = true ∧ (Arg.reg 1).wf = true := by decide
theorem witness_ModStoresRemainder :
    (Arg.reg 0).wf = true ∧ srcVal State.reset (.lit 1) ≠ 0 ∧ srcVal (withReg 2 32768 State.reset) (.reg 2) ≠ 0 := by decide
theorem witness_ModByZeroFaults : srcVal State.reset (.lit 0) = 0 ∧ srcVal State.reset (.reg 1) = 0 := by decide
theorem witness_AndOrStoreBits : (Arg.lit 32767).wf = true ∧ (Arg.reg 0).wf = true := by decide
theorem witness_NotStoresComplement : (Arg.lit 32767).wf = true ∧ (Arg.reg 0).wf = true := by decide
theorem witness_RmemReadsCell :
    (Arg.reg 0).wf = true ∧ (srcVal State.reset (.lit 32767)).toNat ≤ 32767 ∧ (srcVal State.reset (.reg 1)).toNat ≤ 32767 := by
  decide
theorem witness_RmemBeyondFaults : 32767 < (srcVal (withReg 1 32768 State.reset) (.reg 1)).toNat := by decide
theorem witness_WmemWritesCell : (Arg.lit 32767).wf = true ∧ (Arg.reg 7).wf = true := by decide
theorem witness_RetPopsPc : (withStack [1, 40000] State.reset).stack = [1] ++ [40000] := rfl
/-- A line that ends at the last cell, and an empty line at the last cell. -/
theorem witness_InStoresLine :
    ((32766 : Word).toNat ≤ 32767 ∧ (withLines [[65, 66]] State.reset).lines = [65, 66] :: [] ∧
      (32766 : Word).toNat + ([65, 66] : List Word).length ≤ 32768) ∧
    (32767 : Word).toNat ≤ 32767 ∧ (withLines [[]] State.reset).lines = [] :: [] ∧
      (32767 : Word).toNat + ([] : List Word).length ≤ 32768 := by decide
/-- A waiting machine with no line, and one with two. -/
theorem witness_InWaitsForLine :
    State.reset.lines = [] ∧ ({ at0 [20, 100] with pc := 2, waiting := some 100 } : State).status = .running ∧
    ({ at0 [20, 100] with pc := 2, waiting := some 100 } : State).waiting = some 100 ∧
    ({ at0 [20, 100] with pc := 2, waiting := some 100 } : State).lines = [] ∧
    ({ withLines [[65], [66, 67]] (at0 [20, 100]) with pc := 2, waiting := some 100 } : State).status = .running ∧
    ({ withLines [[65], [66, 67]] (at0 [20, 100]) with pc := 2, waiting := some 100 } : State).waiting = some 100 ∧
    ({ withLines [[65], [66, 67]] (at0 [20, 100]) with pc := 2, waiting := some 100 } : State).lines = [65] :: [[66, 67]] := by
  decide
theorem witness_InOverrunFaults :
    (32766 : Word).toNat ≤ 32767 ∧ (withLines [[65, 66, 67], [1]] State.reset).lines = [65, 66, 67] :: [[1]] ∧
    32768 < (32766 : Word).toNat + ([65, 66, 67] : List Word).length := by decide
theorem witness_StepRunsDecoded :
    Fetches (at0 [20, 100]) ∧ decodeAt (at0 [20, 100]) = .instr (.inp (.lit 100)) [0, 0] := ⟨⟨rfl, rfl⟩, by decide⟩
/-- Four words that end at the last cell. -/
theorem witness_StepRunsEncodedWords :
    Fetches (placed 32764 [9, 32768, 4, 5]) ∧ (Instr.add (.reg 0) (.lit 4) (.lit 5)).wf = true ∧
    StandsAtPc (.add (.reg 0) (.lit 4) (.lit 5)) (placed 32764 [9, 32768, 4, 5]) :=
  ⟨⟨rfl, rfl⟩, by decide, fun k h => by
    have hk : k < 4 := h
    interval_cases k <;> exact ⟨by decide, rfl⟩⟩
/-- At the last cell but one, with a cell elsewhere that differs. -/
theorem witness_FetchReadsCellsAtPc :
    (placed 32766 [17, 0]).pc = ({ placed 32766 [17, 0] with mem := [(3, 1), (32766, 17)] } : State).pc ∧
    ∀ k, k < 4 → (placed 32766 [17, 0]).pc.toNat + k < 32768 →
      (placed 32766 [17, 0]).cell ((placed 32766 [17, 0]).pc.toNat + k) =
        ({ placed 32766 [17, 0] with mem := [(3, 1), (32766, 17)] } : State).cell ((placed 32766 [17, 0]).pc.toNat + k) := by
  decide
theorem witness_OpcodeFetchBeyondFaults :
    (Fetches { State.reset with pc := 32768 } ∧ 32767 < ({ State.reset with pc := 32768 } : State).pc.toNat) ∧
    Fetches { State.reset with pc := 65535 } ∧ 32767 < ({ State.reset with pc := 65535 } : State).pc.toNat :=
  ⟨⟨⟨rfl, rfl⟩, by decide⟩, ⟨rfl, rfl⟩, by decide⟩
theorem witness_UnknownOpcodeFaults :
    Fetches (placed 32767 [22]) ∧ (placed 32767 [22]).pc.toNat ≤ 32767 ∧
    21 < ((placed 32767 [22]).cell (placed 32767 [22]).pc.toNat).toNat := ⟨⟨rfl, rfl⟩, by decide, by decide⟩
/-- The last argument, and the first, is the one that would lie above 32767. -/
theorem witness_ArgumentFetchBeyondFaults :
    (Fetches (placed 32765 [9, 40000, 1]) ∧ (placed 32765 [9, 40000, 1]).pc.toNat ≤ 32767 ∧
      (placed 32765 [9, 40000, 1]).cell (placed 32765 [9, 40000, 1]).pc.toNat = (Instr.add (.lit 0) (.lit 0) (.lit 0)).opcode ∧
      32767 < (placed 32765 [9, 40000, 1]).pc.toNat + (Instr.add (.lit 0) (.lit 0) (.lit 0)).args.length) ∧
    Fetches (placed 32767 [2]) ∧ (placed 32767 [2]).cell (placed 32767 [2]).pc.toNat = (Instr.push (.lit 0)).opcode ∧
      32767 < (placed 32767 [2]).pc.toNat + (Instr.push (.lit 0)).args.length :=
  ⟨⟨⟨rfl, rfl⟩, by decide⟩, ⟨rfl, rfl⟩, by decide⟩
/-- The smallest offending word, in the last argument, which stands in the last cell. -/
theorem witness_InvalidArgumentFaults :
    Fetches (placed 32764 [9, 1, 32775, 32776]) ∧
    (placed 32764 [9, 1, 32775, 32776]).cell (placed 32764 [9, 1, 32775, 32776]).pc.toNat =
      (Instr.add (.lit 0) (.lit 0) (.lit 0)).opcode ∧
    ([1, 32775, 32776] : List Word).length = (Instr.add (.lit 0) (.lit 0) (.lit 0)).args.length ∧
    (placed 32764 [9, 1, 32775, 32776]).pc.toNat + ([1, 32775, 32776] : List Word).length ≤ 32767 ∧
    (∀ k (h : k < ([1, 32775, 32776] : List Word).length),
      (placed 32764 [9, 1, 32775, 32776]).cell ((placed 32764 [9, 1, 32775, 32776]).pc.toNat + 1 + k) =
        ([1, 32775, 32776] : List Word)[k]) ∧
    ∃ w ∈ ([1, 32775, 32776] : List Word), 32775 < w.toNat :=
  ⟨⟨rfl, rfl⟩, rfl, rfl, by decide, fun k h => by
    have hk : k < 3 := h
    interval_cases k <;> rfl, 32776, by decide, by decide⟩
theorem witness_PcAfterInstruction :
    ∃ t, Fetches (placed 14 [7, 32768, 6]) ∧
      decodeAt (placed 14 [7, 32768, 6]) = .instr (.jnz (.reg 0) (.lit 6)) [0] ∧
      step (placed 14 [7, 32768, 6]) = .next t ∧ t.fault = none :=
  ⟨_, ⟨rfl, rfl⟩, by decide, rfl, rfl⟩
theorem witness_PcNeverWraps :
    ∃ t, Fetches (placed 32767 [21]) ∧ decodeAt (placed 32767 [21]) = .instr .noop [] ∧ step (placed 32767 [21]) = .next t :=
  ⟨_, ⟨rfl, rfl⟩, by decide, rfl⟩
theorem witness_FaultLeavesPc :
    (∃ t r, Fetches (placed 32767 [9]) ∧ step (placed 32767 [9]) = .next t ∧ t.fault = some r ∧ r.opcode = some 9) ∧
    ∃ t r, Fetches (placed 32768 []) ∧ step (placed 32768 []) = .next t ∧ t.fault = some r ∧ r.opcode = none :=
  ⟨⟨_, _, ⟨rfl, rfl⟩, rfl, rfl, rfl⟩, _, _, ⟨rfl, rfl⟩, rfl, rfl, rfl⟩
theorem witness_TerminalStatus :
    ({ State.reset with halted := true } : State).status = .halted ∧
    (State.reset.raise ⟨.stackUnderflow, 0, some 18, [], [], none⟩).status = .faulted := by decide
theorem witness_OnlyHaltSetsHalted :
    (∃ t, exec .halt State.reset = .next t) ∧
    (∃ t, step { State.reset with halted := true } = .next t ∧ ({ State.reset with halted := true } : State).halted = true) ∧
    ∃ t, step (placed 32767 [0]) = .next t ∧ (placed 32767 [0]).halted = false ∧ t.halted = true :=
  ⟨⟨_, rfl⟩, ⟨_, rfl, rfl⟩, _, rfl, rfl, rfl⟩
/-- A fault with no effect, and an overrunning `in`. -/
theorem witness_FaultWritesNothing :
    (∃ t, (at0 [18]).status = .running ∧ step (at0 [18]) = .next t ∧ t.fault ≠ none) ∧
    ∃ t, (withLines [[65, 66, 67]] (at0 [20, 32766])).status = .running ∧
      step (withLines [[65, 66, 67]] (at0 [20, 32766])) = .next t ∧ t.fault ≠ none :=
  ⟨⟨_, rfl, rfl, nofun⟩, _, rfl, rfl, nofun⟩
theorem witness_RegisterWrittenOnlyAsDest :
    ∃ t, exec (.set (.reg 7) (.lit 5)) State.reset = .next t ∧ t.reg 7 ≠ State.reset.reg 7 := ⟨_, rfl, by decide⟩
/-- A register that `wmem` names only by its index, one that is only a destination, one that is not named at all. -/
theorem witness_UnnamedRegisterUnread :
    (∃ t, Arg.reg 3 ∉ (Instr.wmem (.reg 3) (.reg 4)).sources ∧ exec (.wmem (.reg 3) (.reg 4)) State.reset = .next t) ∧
    (∃ t, Arg.reg 3 ∉ (Instr.set (.reg 3) (.lit 5)).sources ∧ exec (.set (.reg 3) (.lit 5)) State.reset = .next t) ∧
    ∃ t, Arg.reg 3 ∉ Instr.halt.sources ∧ exec .halt State.reset = .next t :=
  ⟨⟨_, by decide, rfl⟩, ⟨_, by decide, rfl⟩, _, by decide, rfl⟩
/-- A literal destination, a register write-address, the last cell of a line. -/
theorem witness_MemoryWritersOnly :
    (∃ t, exec (.set (.lit 32767) (.lit 5)) State.reset = .next t ∧ t.cell 32767 ≠ State.reset.cell 32767) ∧
    (∃ t, exec (.wmem (.reg 7) (.lit 1)) State.reset = .next t ∧ t.cell 7 ≠ State.reset.cell 7) ∧
    ∃ t, exec (.inp (.lit 32766)) (withLines [[65, 66]] State.reset) = .next t ∧ t.cell 32767 ≠ State.reset.cell 32767 :=
  ⟨⟨_, rfl, by decide⟩, ⟨_, rfl, by decide⟩, _, rfl, by decide⟩
theorem witness_StackDiscipline :
    (∃ t, exec (.call (.lit 5)) State.reset = .next t) ∧ ∃ t, exec .ret (withStack [5, 9] State.reset) = .next t :=
  ⟨⟨_, rfl⟩, _, rfl⟩
theorem witness_PortsOnlyByOutAndIn :
    (∃ t, exec (.out (.lit 9)) State.reset = .next t) ∧ ∃ t, exec (.inp (.lit 5)) (withLines [[1], [2]] State.reset) = .next t :=
  ⟨⟨_, rfl⟩, _, rfl⟩
theorem witness_AluResultInDomain :
    ∃ t, isAlu (.or (.lit 5) (.reg 0) (.reg 0)) = true ∧ (Instr.or (.lit 5) (.reg 0) (.reg 0)).wf = true ∧
      (withReg 0 65535 State.reset).fault = none ∧
      exec (.or (.lit 5) (.reg 0) (.reg 0)) (withReg 0 65535 State.reset) = .next t ∧ t.fault = none :=
  ⟨_, rfl, by decide, rfl, rfl, rfl⟩
theorem witness_RetAfterCallReturns :
    ∃ t, exec (.call (.lit 100)) State.reset = .next t ∧ ({ at0 [18] with stack := [0] } : State).stack = t.stack :=
  ⟨_, rfl, by decide⟩
/-- A Running machine that stores at the end of memory, and one that waits for a line. -/
theorem witness_StepKeepsInv :
    (∃ t, Inv (placed 100 [1, 32767, 5]) ∧ step (placed 100 [1, 32767, 5]) = .next t) ∧
    ∃ t, Inv { State.reset with pc := 2, waiting := some 32767 } ∧
      step { State.reset with pc := 2, waiting := some 32767 } = .next t :=
  ⟨⟨_, ⟨by decide, nofun, nofun, nofun⟩, rfl⟩,
   _, ⟨by decide, nofun, fun _ h => by cases h; decide, nofun⟩, rfl⟩
/-- The longest image, one word more, and a state that reset did not leave. -/
theorem witness_LoadPlacesImage :
    (List.replicate 32768 (7 : Word)).length ≤ 32768 ∧ 32768 < (List.replicate 32769 (7 : Word)).length ∧
    ({ State.reset with pc := 1 } : State) ≠
      { State.reset with
        lines := ({ State.reset with pc := 1 } : State).lines, draws := ({ State.reset with pc := 1 } : State).draws } :=
  ⟨by rw [List.length_replicate], by rw [List.length_replicate]; omega, by decide⟩
theorem witness_RunCutAnywhere :
    (at0 [21]).status = .running ∧ ({ State.reset with halted := true } : State).status ≠ .running := by decide

end Sys2Proof.Tests
end

section
/-! PROOFS. The field `halted` (rule R30): what each operation does to it, and the statement that only `halt` sets it. -/

namespace Sys2Proof.Machine

/-! ### The shared operations leave `halted` as it is -/

@[simp] theorem raiseIn_halted (i : Instr) (c : Fault) (addr : Option Word) (s : State) :
    (raiseIn i c addr s).halted = s.halted := rfl

@[simp] theorem memWrite_halted (i : Instr) (addr v : Word) (s : State) : (memWrite i addr v s).halted = s.halted := by
  rcases memWrite_cases i addr v s with ⟨-, e⟩ | ⟨-, e⟩ <;> simp [e]

@[simp] theorem store_halted (i : Instr) (a : Arg) (v : Word) (s : State) :
    (store i (dstTgt a) v s).halted = s.halted := by
  rcases store_cases i a v s with ⟨w, -, -, e⟩ | ⟨k, -, e⟩ | ⟨w, -, -, e⟩ <;> simp [e]

@[simp] theorem takeLine_halted (a : Word) (line : List Word) (s : State) : (takeLine a line s).halted = s.halted := by
  rcases takeLine_cases a line s with ⟨-, e⟩ | ⟨-, -, e⟩ <;> simp [e]

@[simp] theorem awaitLine_halted (a : Word) (s : State) : (awaitLine a s).halted = s.halted := by
  rcases awaitLine_cases a s with ⟨-, e⟩ | ⟨line, rest, -, e⟩ <;> simp [e]

@[simp] theorem fetchFault_halted (e : DecodeError) (s : State) : (fetchFault e s).halted = s.halted := by
  cases e <;> rfl

/-! ### Executing an instruction, and the opcode word it was decoded from -/

/-- Executing `halt` sets `halted`; executing any other instruction keeps it. -/
theorem Did.halted_eq {s t : State} {i : Instr} (h : Did s i t) : t.halted = (s.halted || decide (i = .halt)) := by
  cases h with
  | halted => simp
  | stored _ a v hi =>
    have hne : i ≠ .halt := by
      rintro rfl
      cases hi
    simp [hne]
  | underflow _ hi => rcases hi with rfl | ⟨a, rfl⟩ <;> simp
  | nothing _ hi => rcases hi with rfl | ⟨a, b, rfl | rfl⟩ <;> simp
  | jumped _ v hi => rcases hi with ⟨a, rfl⟩ | ⟨a, b, rfl | rfl⟩ <;> simp
  | _ => simp

/-- The row of an opcode word builds instructions with that opcode. -/
theorem opRow_opcode {op : Word} {row : OpRow} (h : opRow op = some row) (ws : List Word) : (row.build ws).opcode = op := by
  unfold opRow at h
  split at h <;> cases h
  all_goals exact (BitVec.eq_of_toNat_eq ‹_›).symm

/-- A decoded instruction begins with its own opcode word. -/
theorem decode_head {ws : List Word} {i : Instr} {rest : List Word} (h : decode ws = .instr i rest) :
    ws.head? = some i.opcode := by
  cases ws with
  | nil => cases h
  | cons op ws =>
    rcases decode_cases op ws with ⟨-, e⟩ | ⟨row, hr, ⟨-, e⟩ | ⟨-, -, e⟩ | ⟨-, -, e⟩⟩ <;> rw [e] at h <;> cases h
    rw [opRow_opcode hr]
    rfl

/-- The cell at `pc` holds the opcode word of the instruction decoded there. -/
theorem cell_pc_of_decodeAt {s : State} {i : Instr} {rest : List Word} (h : decodeAt s = .instr i rest) :
    s.cell s.pc.toNat = i.opcode := by
  obtain ⟨hl, hop⟩ := List.getElem?_eq_some_iff.mp (List.head?_eq_getElem? ▸ decode_head h)
  rw [fetchWords_getElem] at hop
  exact hop

/-! ### The step and the run -/

/-- A step never clears `halted`. -/
theorem step_keeps_halted {s t : State} (h : step s = .next t) (hs : s.halted = true) : t.halted = true := by
  obtain ⟨-, ⟨-, rfl⟩ | ⟨hf, -⟩ | ⟨hf, -⟩ | ⟨hf, -⟩⟩ := step_cases h
  · exact hs
  all_goals simp [hs] at hf

/-- A step that sets `halted` fetched and executed `halt`. -/
theorem step_sets_halted {s t : State} (h : step s = .next t) (hs : s.halted = false) (ht : t.halted = true) :
    s.fault = none ∧ s.waiting = none ∧ (∃ rest, decodeAt s = .instr .halt rest) ∧
      t = { s.past .halt with halted := true } := by
  obtain ⟨hf, ⟨-, rfl⟩ | ⟨-, a, -, rfl⟩ | ⟨-, -, e, -, rfl⟩ | ⟨-, hw, i, rest, hd, -, hx⟩⟩ := step_cases h
  · simp [hs] at ht
  · simp [hs] at ht
  · simp [hs] at ht
  · have hi : i = .halt := by simpa [ht, hs] using (exec_did hx).halted_eq
    subst hi
    cases hx
    exact ⟨hf, hw, ⟨rest, hd⟩, rfl⟩

/-- A run performs no step from a machine that is not Running (rules R125, R224). -/
theorem runFor_of_not_running {s : State} (h : s.status ≠ .running) (n : Nat) : runFor n s = .next s := by
  cases n with
  | zero => rfl
  | succ n => exact if_neg h

/-- Settles O45: the effect of every instruction on `halted` is read off `Did`, and a step that sets it executed a `halt`
that the decoder found at `pc`. -/
theorem onlyHaltSetsHalted : Obligations.OnlyHaltSetsHalted := by
  refine ⟨rfl, fun i s t h => (exec_did h).halted_eq, fun s t => step_keeps_halted, fun s t h hs ht => ?_, fun n s hs => ?_⟩
  · obtain ⟨hf, hw, ⟨rest, hd⟩, rfl⟩ := step_sets_halted h hs ht
    exact ⟨hw, cell_pc_of_decodeAt hd, hf⟩
  · exact runFor_of_not_running (by simp [State.status_running_iff, hs]) n

end Sys2Proof.Machine
end

section
/-! PROOFS. The opcode word: it is one of 0..21 as a whole word, and it alone decides the length (rules R81, R85). -/

namespace Sys2Proof.Machine

/-! ### The rows of the opcode table -/

/-- The opcode table has no row for exactly the words above 21. -/
theorem opRow_eq_none_iff {op : Word} : opRow op = none ↔ 21 < op.toNat := by
  unfold opRow
  split
  -- the branch without a row is reached only when the word is none of 0..21
  case h_23 => grind
  all_goals simp only [reduceCtorEq, false_iff]; omega

/-- The arities of the opcode table are those of rule R82. -/
theorem opRow_arity {op : Word} {row : OpRow} (h : opRow op = some row) : row.arity = Claims.arity op.toNat := by
  unfold opRow at h
  split at h <;> cases h
  all_goals rw [‹op.toNat = _›]; rfl

/-! ### What the decoder's answer says of the opcode word -/

/-- What is decoded was built by the row of its opcode word from as many words as that row's arity. -/
theorem decode_eq_instr {op : Word} {ws : List Word} {i : Instr} {rest : List Word} (h : decode (op :: ws) = .instr i rest) :
    ∃ row, opRow op = some row ∧ row.arity ≤ ws.length ∧ i = row.build (ws.take row.arity) ∧ rest = ws.drop row.arity := by
  rcases decode_cases op ws with ⟨-, e⟩ | ⟨row, hr, ⟨-, e⟩ | ⟨hl, -, e⟩ | ⟨-, -, e⟩⟩ <;> rw [e] at h <;> cases h
  exact ⟨row, hr, hl, rfl, rfl⟩

/-- The decoder names an unknown opcode exactly when the table has no row for the word. -/
theorem decode_eq_unknownOpcode_iff {op : Word} {ws : List Word} :
    decode (op :: ws) = .reject (.unknownOpcode op) ↔ opRow op = none := by
  rcases decode_cases op ws with ⟨hr, e⟩ | ⟨row, hr, ⟨-, e⟩ | ⟨-, -, e⟩ | ⟨-, -, e⟩⟩ <;> simp [hr, e]

/-- Settles O4: the words without a row in the opcode table are those above 21, and a row builds instructions of its opcode. -/
theorem opcodeIsWholeWord : Obligations.OpcodeIsWholeWord := by
  refine ⟨fun op ws => decode_eq_unknownOpcode_iff.trans opRow_eq_none_iff, fun op ws i rest h => ?_⟩
  obtain ⟨row, hr, -, rfl, -⟩ := decode_eq_instr h
  have hsome : opRow op ≠ none := by simp [hr]
  exact ⟨opRow_opcode hr _, Nat.not_lt.mp (mt opRow_eq_none_iff.mpr hsome)⟩

/-- Settles O5: the row of the opcode word fixes how many words are read and how many arguments are built from them; a word
without a row is rejected before any other is looked at. -/
theorem lengthFixedByOpcode : Obligations.LengthFixedByOpcode := by
  refine ⟨fun op ws i rest h => ?_, fun op ws hop => ?_⟩
  · obtain ⟨row, hr, hl, rfl, rfl⟩ := decode_eq_instr h
    have hargs := (opRow_build hr (ws.take row.arity)).2.1
    rw [← opRow_arity hr, Instr.len, hargs]
    exact ⟨rfl, hl, rfl⟩
  · have reject (ws : List Word) : decode (op :: ws) = .reject (.unknownOpcode op) :=
      decode_eq_unknownOpcode_iff.mpr (opRow_eq_none_iff.mpr hop)
    rw [reject, reject]

end Sys2Proof.Machine
end

section
/-! PROOFS. Operands by their raw word: what a source word resolves to (rule R116), and what a store to a destination word
writes and leaves unchanged (rules R117, R118). -/

namespace Sys2Proof.Machine

open Claims (WroteDest)

/-! ### The class of a raw argument word (rule R83) -/

/-- A word up to 32767 is a literal. -/
theorem toArg_of_le {w : Word} (h : w.toNat ≤ 32767) : toArg w = .lit w := if_pos (Nat.lt_succ_of_le h)

/-- A word 32768 + k is a reference to register k. -/
theorem toArg_of_register {w : Word} {k : Fin 8} (h : w.toNat = 32768 + k.val) : toArg w = .reg k := by
  have hlit : ¬ w.toNat < Config.valueMod := by rw [h]; exact Nat.not_lt.mpr (Nat.le_add_right ..)
  have hk : w.toNat % 8 = k.val := by omega
  simp only [toArg, if_neg hlit, hk]

/-! ### What a write changes and what it leaves unchanged -/

/-- Replacing one cell of the memory writes that cell and nothing else. -/
theorem memSet_wroteDest (w v : Word) (s : State) : WroteDest (.lit w) v s { s with mem := memSet s.mem w.toNat v } where
  reg _ := rfl
  cell n := memGet_memSet s.mem w.toNat n v
  pc := rfl
  stack := rfl
  halted := rfl
  fault := rfl
  out := rfl
  lines := rfl
  waiting := rfl
  loaded := rfl
  draws := rfl

/-- Writing a register writes that register and nothing else. -/
theorem State.setReg_wroteDest (k : Fin 8) (v : Word) (s : State) : WroteDest (.reg k) v s (s.setReg k v) where
  reg j := by simp [State.setReg_reg, eq_comm]
  cell _ := rfl
  pc := rfl
  stack := rfl
  halted := rfl
  fault := rfl
  out := rfl
  lines := rfl
  waiting := rfl
  loaded := rfl
  draws := rfl

/-- A store to a well-formed destination writes that destination and nothing else. -/
theorem store_wroteDest {a : Arg} (i : Instr) (v : Word) (s : State) (h : a.wf = true) :
    WroteDest a v s (store i (dstTgt a) v s) := by
  rw [store_of_wf i v s h]
  cases a with
  | lit w => exact memSet_wroteDest w v s
  | reg k => exact s.setReg_wroteDest k v

/-- Storing to a raw word writes the destination the word denotes: the decoder's operands are well formed. -/
theorem store_toArg_wroteDest (i : Instr) (w v : Word) (s : State) :
    WroteDest (toArg w) v s (store i (dstTgt (toArg w)) v s) := store_wroteDest i v s (toArg_wf w)

/-! ### The statements -/

/-- Settles O6: the raw word is classified first, and each class resolves by definition. -/
theorem sourceOperandValue : Obligations.SourceOperandValue := by
  refine fun s w => ⟨fun h => ?_, fun k h => ?_⟩
  · rw [toArg_of_le h]
    rfl
  · rw [toArg_of_register h]
    rfl

/-- Settles O7: a classified raw word is a well-formed destination, so the store writes exactly what the word denotes. -/
theorem destinationStoreExact : Obligations.DestinationStoreExact := by
  refine fun i s w v => ⟨fun h => ?_, fun k h => ?_⟩
  · exact toArg_of_le h ▸ store_toArg_wroteDest i w v s
  · exact toArg_of_register h ▸ store_toArg_wroteDest i w v s

end Sys2Proof.Machine
end

section
/-! PROOFS. `noop` (rule R141): the one-word instruction that leaves the state it executes in as it is. -/

namespace Sys2Proof.Machine

/-- Executing `noop` answers the state it is given. -/
@[simp] theorem exec_noop (s : State) : exec .noop s = .next s := rfl

/-- Settles O9: without arguments the encoding is the opcode word alone, and the meaning answers its own state. -/
theorem noopChangesNothing : Obligations.NoopChangesNothing := ⟨rfl, exec_noop⟩

end Sys2Proof.Machine
end

section
/-! PROOFS. `set` and `push` (rules R150, R151): the word of a source operand is moved verbatim, by `set` to its destination,
by `push` to the top of the stack. -/

namespace Sys2Proof.Machine

/-- Executing `set` stores the source's word to the destination. -/
@[simp] theorem exec_set (a b : Arg) (s : State) :
    exec (.set a b) s = .next (store (.set a b) (dstTgt a) (srcVal s b) s) := rfl

/-- Executing `push` pushes the source's word. -/
@[simp] theorem exec_push (a : Arg) (s : State) : exec (.push a) s = .next (s.push (srcVal s a)) := rfl

/-- Settles O10: `set` is one store, and a store to a well-formed destination writes that destination and nothing else. -/
theorem setStoresSource : Obligations.SetStoresSource := by
  intro a b s ha
  have hencode : encode (.set a b) = [1, a.word, b.word] := rfl
  exact ⟨hencode, _, exec_set a b s, store_wroteDest (.set a b) (srcVal s b) s ha⟩

/-- Settles O11: `push` is one push, which by definition appends to the stack and keeps every other field. -/
theorem pushAppendsSource : Obligations.PushAppendsSource := by
  intro a s
  have hencode : encode (.push a) = [2, a.word] := rfl
  exact ⟨hencode, exec_push a s⟩

end Sys2Proof.Machine
end

section
/-! PROOFS. `eq` and `gt` (rules R160, R161): the truth of a comparison of the two full source words is stored to the
destination as 1 or 0. -/

namespace Sys2Proof.Machine

/-! ### The word a comparison stores -/

/-- A comparison stores 1 exactly when what it tests holds. -/
@[simp] theorem truth_decide (p : Prop) [Decidable p] : truth (decide p) = if p then 1 else 0 := by
  by_cases h : p <;> simp [truth, h]

/-! ### The meanings, with that word written out -/

/-- Executing `eq` stores whether the sources' words are equal. -/
@[simp] theorem exec_eq (a b c : Arg) (s : State) :
    exec (.eq a b c) s = .next (store (.eq a b c) (dstTgt a) (if srcVal s b = srcVal s c then 1 else 0) s) := by
  rw [← truth_decide]
  rfl

/-- Executing `gt` stores whether the first source's word is the greater number. -/
@[simp] theorem exec_gt (a b c : Arg) (s : State) :
    exec (.gt a b c) s =
      .next (store (.gt a b c) (dstTgt a) (if (srcVal s b).toNat > (srcVal s c).toNat then 1 else 0) s) := by
  rw [← truth_decide]
  rfl

/-! ### The statements -/

/-- Settles O14: `eq` is one store of the truth of the equality, and a store to a well-formed destination writes that
destination and nothing else. -/
theorem eqStoresTruth : Obligations.EqStoresTruth := by
  intro a b c s ha
  have hencode : encode (.eq a b c) = [4, a.word, b.word, c.word] := rfl
  exact ⟨hencode, _, exec_eq a b c s, store_wroteDest (.eq a b c) _ s ha⟩

/-- Settles O15: `gt` is one store of the truth of the unsigned comparison, with the frame of every store. -/
theorem gtStoresTruth : Obligations.GtStoresTruth := by
  intro a b c s ha
  have hencode : encode (.gt a b c) = [5, a.word, b.word, c.word] := rfl
  exact ⟨hencode, _, exec_gt a b c s, store_wroteDest (.gt a b c) _ s ha⟩

end Sys2Proof.Machine
end

section
/-! PROOFS. `jmp`, `jnz` and `jez` (rules R170, R171, R172): the program counter takes the target's word, unchecked, always or
on a test of the condition's full word against zero. -/

namespace Sys2Proof.Machine

/-! ### The meanings, with the test and the new program counter written out -/

/-- The test of a word against zero is the equation. -/
@[simp] theorem isZero_iff {w : Word} : isZero w = true ↔ w = 0 := decide_eq_true_iff

/-- Executing `jmp` puts the target's word into the program counter. -/
@[simp] theorem exec_jmp (a : Arg) (s : State) : exec (.jmp a) s = .next { s with pc := srcVal s a } := rfl

/-- Executing `jnz` jumps when the condition's word is not zero. -/
@[simp] theorem exec_jnz (a b : Arg) (s : State) :
    exec (.jnz a b) s = .next (if srcVal s a ≠ 0 then { s with pc := srcVal s b } else s) := by
  simp only [exec, execJnz, State.jump, isZero_iff, ne_eq, ite_not]

/-- Executing `jez` jumps when the condition's word is zero. -/
@[simp] theorem exec_jez (a b : Arg) (s : State) :
    exec (.jez a b) s = .next (if srcVal s a = 0 then { s with pc := srcVal s b } else s) := by
  simp only [exec, execJez, State.jump, isZero_iff]

/-! ### The statements -/

/-- Settles O16: `jmp` is one jump, which by definition replaces the program counter and keeps every other field. -/
theorem jmpSetsPc : Obligations.JmpSetsPc := by
  intro a s
  have hencode : encode (.jmp a) = [6, a.word] := rfl
  exact ⟨hencode, exec_jmp a s⟩

/-- Settles O17: `jnz` and `jez` test the same word against zero and jump on opposite answers. -/
theorem conditionalJumps : Obligations.ConditionalJumps := by
  intro a b s
  have hjnz : encode (.jnz a b) = [7, a.word, b.word] := rfl
  have hjez : encode (.jez a b) = [8, a.word, b.word] := rfl
  exact ⟨hjnz, hjez, exec_jnz a b s, exec_jez a b s⟩

end Sys2Proof.Machine
end

section
/-! PROOFS. `add`, `mul` and `not` (rules R180, R181, R185): a result computed from the full source words and reduced modulo
32768 is stored to the destination. -/

namespace Sys2Proof.Machine

/-! ### The words the ALU computes, as numbers -/

/-- A result of the ALU, as a number, is the exact number reduced (rule R120): the reduced number fits a word. -/
@[simp] theorem value_toNat (n : Nat) : (value n).toNat = n % 32768 := by
  have hword : n % 32768 < 2 ^ 16 := by omega
  exact Nat.mod_eq_of_lt hword

/-- `add` computes the mathematical sum, reduced. -/
theorem aluAdd_toNat (b c : Word) : (aluAdd b c).toNat = (b.toNat + c.toNat) % 32768 := value_toNat _

/-- `mul` computes the mathematical product, reduced. -/
theorem aluMul_toNat (b c : Word) : (aluMul b c).toNat = (b.toNat * c.toNat) % 32768 := value_toNat _

/-- `not` computes 32767 less the low 15 bits, a number that needs no reduction. -/
theorem aluNot_toNat (b : Word) : (aluNot b).toNat = 32767 - b.toNat % 32768 := by
  have hvalue : 32767 - b.toNat % 32768 < 32768 := by omega
  rw [aluNot, value_toNat, Nat.mod_eq_of_lt hvalue]

/-- `not` inverts each of the low 15 bits and clears bit 15: 32767 has exactly those bits set, so the subtraction borrows
nowhere. -/
theorem aluNot_getLsbD (b : Word) (k : Nat) : (aluNot b).getLsbD k = (decide (k < 15) && !b.getLsbD k) := by
  have hlow : b.toNat % 2 ^ 15 < 2 ^ 15 := Nat.mod_lt _ (Nat.two_pow_pos 15)
  have hnum : (aluNot b).toNat = 2 ^ 15 - (b.toNat % 2 ^ 15 + 1) := by rw [aluNot_toNat]; omega
  calc (aluNot b).getLsbD k
      = (2 ^ 15 - (b.toNat % 2 ^ 15 + 1)).testBit k := by rw [← BitVec.testBit_toNat, hnum]
    _ = (decide (k < 15) && !(b.toNat % 2 ^ 15).testBit k) := Nat.testBit_two_pow_sub_succ hlow k
    _ = (decide (k < 15) && !b.getLsbD k) := by
      rw [Nat.testBit_mod_two_pow, BitVec.testBit_toNat]
      by_cases hk : k < 15 <;> simp [hk]

/-! ### The meanings -/

/-- Executing `add` stores the ALU's sum of the sources' words. -/
@[simp] theorem exec_add (a b c : Arg) (s : State) :
    exec (.add a b c) s = .next (store (.add a b c) (dstTgt a) (aluAdd (srcVal s b) (srcVal s c)) s) := rfl

/-- Executing `mul` stores the ALU's product of the sources' words. -/
@[simp] theorem exec_mul (a b c : Arg) (s : State) :
    exec (.mul a b c) s = .next (store (.mul a b c) (dstTgt a) (aluMul (srcVal s b) (srcVal s c)) s) := rfl

/-- Executing `not` stores the ALU's complement of the source's word. -/
@[simp] theorem exec_not (a b : Arg) (s : State) :
    exec (.not a b) s = .next (store (.not a b) (dstTgt a) (aluNot (srcVal s b)) s) := rfl

/-! ### The statements -/

/-- Settles O18: `add` is one store of the reduced sum, and a store to a well-formed destination writes that destination and
nothing else. -/
theorem addStoresSum : Obligations.AddStoresSum := by
  intro a b c s ha
  have hencode : encode (.add a b c) = [9, a.word, b.word, c.word] := rfl
  exact ⟨hencode, _, _, exec_add a b c s, store_wroteDest (.add a b c) _ s ha, aluAdd_toNat _ _⟩

/-- Settles O19: `mul` is one store of the reduced product, with the frame of every store. -/
theorem mulStoresProduct : Obligations.MulStoresProduct := by
  intro a b c s ha
  have hencode : encode (.mul a b c) = [10, a.word, b.word, c.word] := rfl
  exact ⟨hencode, _, _, exec_mul a b c s, store_wroteDest (.mul a b c) _ s ha, aluMul_toNat _ _⟩

/-- Settles O23: `not` is one store of the 15-bit complement, with the frame of every store; the complement is read as a
number and bit by bit. -/
theorem notStoresComplement : Obligations.NotStoresComplement := by
  intro a b s ha
  have hencode : encode (.not a b) = [14, a.word, b.word] := rfl
  exact ⟨hencode, _, _, exec_not a b s, store_wroteDest (.not a b) _ s ha, aluNot_toNat _, aluNot_getLsbD _⟩

end Sys2Proof.Machine
end

section
/-! PROOFS. `call` (rule R200): the address of the instruction after it goes on the stack, and the program counter takes the
target's word, unchecked. -/

namespace Sys2Proof.Machine

/-- Executing `call` pushes the program counter it is given and jumps to the target's word. The target is resolved in the
state before the push. -/
@[simp] theorem exec_call (a : Arg) (s : State) :
    exec (.call a) s = .next { s with stack := s.stack ++ [s.pc], pc := srcVal s a } := rfl

/-- Settles O27: `call` is one push followed by one jump, which by definition replace the stack and the program counter and
keep every other field. -/
theorem callPushesReturn : Obligations.CallPushesReturn := by
  intro a s
  have hencode : encode (.call a) = [17, a.word] := rfl
  exact ⟨hencode, exec_call a s⟩

end Sys2Proof.Machine
end

section
/-! PROOFS. `out` (rule R210): the source's word goes to the end of the output stream. -/

namespace Sys2Proof.Machine

/-- Executing `out` emits the source's word as it stands, neither reduced nor checked. -/
@[simp] theorem exec_out (a : Arg) (s : State) : exec (.out a) s = .next (s.emit (srcVal s a)) := rfl

/-- Settles O29: `out` is one emission, which by definition appends to the output stream and keeps every other field. -/
theorem outEmitsSource : Obligations.OutEmitsSource := by
  intro a s
  have hencode : encode (.out a) = [19, a.word] := rfl
  exact ⟨hencode, exec_out a s⟩

end Sys2Proof.Machine
end

section
/-! PROOFS. The encoder and the decoder are inverse to each other (30_encoding.md sections 1 and 2). -/

namespace Sys2Proof.Machine

/-! ### One argument word and its class (rules R83, R94) -/

/-- The raw word of a register reference, as a number. -/
theorem Arg.word_reg_toNat (k : Fin 8) : (Arg.reg k).word.toNat = 32768 + k.val := by
  have hword : 32768 + k.val < 2 ^ 16 := by omega
  exact Nat.mod_eq_of_lt hword

/-- The raw word of a well-formed argument is a legal one. -/
theorem Arg.word_le_of_wf {a : Arg} (h : a.wf = true) : a.word.toNat ≤ 32775 := by
  cases a with
  | lit w =>
    have hw : w.toNat < 32768 := Arg.wf_lit.mp h
    rw [Arg.word]
    omega
  | reg k =>
    rw [Arg.word_reg_toNat]
    omega

/-- Classifying the raw word of a well-formed argument gives back the argument. -/
theorem toArg_word {a : Arg} (h : a.wf = true) : toArg a.word = a := by
  cases a with
  | lit w => exact toArg_of_le (Nat.le_of_lt_succ (Arg.wf_lit.mp h))
  | reg k => exact toArg_of_register (Arg.word_reg_toNat k)

/-- The class of a legal argument word has that raw word: no bit of it is ignored. -/
theorem word_toArg {w : Word} (h : w.toNat ≤ 32775) : (toArg w).word = w := by
  by_cases hlit : w.toNat ≤ 32767
  · rw [toArg_of_le hlit]
    rfl
  · have hk : w.toNat = 32768 + (w.toNat - 32768) := by omega
    have hreg : toArg w = .reg ⟨w.toNat - 32768, by omega⟩ := toArg_of_register hk
    exact hreg ▸ BitVec.eq_of_toNat_eq ((Arg.word_reg_toNat _).trans hk.symm)

/-! ### The offending argument positions (rule R114) -/

/-- Position `n` offends exactly when the word there, counted from `m`, is above 32775. -/
theorem mem_badArgsFrom {m n : Nat} {ws : List Word} :
    n ∈ badArgsFrom m ws ↔ ∃ k w, n = m + k ∧ ws[k]? = some w ∧ 32775 < w.toNat := by
  induction ws generalizing m with
  | nil => simp [badArgsFrom]
  | cons v ws ih =>
    -- the first word is at position `m`, the others are counted from `m + 1`
    have hsplit : (∃ k w, n = m + k ∧ (v :: ws)[k]? = some w ∧ 32775 < w.toNat) ↔
        (n = m ∧ 32775 < v.toNat) ∨ n ∈ badArgsFrom (m + 1) ws := by
      rw [ih]
      constructor
      · rintro ⟨k | k, w, hn, hw, hbad⟩
        · simp only [List.getElem?_cons_zero, Option.some.injEq] at hw
          exact .inl ⟨hn, hw ▸ hbad⟩
        · exact .inr ⟨k, w, by omega, hw, hbad⟩
      · rintro (⟨hn, hbad⟩ | ⟨k, w, hn, hw, hbad⟩)
        · exact ⟨0, v, hn, rfl, hbad⟩
        · exact ⟨k + 1, w, by omega, hw, hbad⟩
    rw [hsplit, badArgsFrom]
    by_cases hv : 32775 < v.toNat <;> simp [hv]

/-- No position offends exactly when every word is legal. -/
theorem badArgs_eq_nil_iff {ws : List Word} : badArgs ws = [] ↔ ∀ w ∈ ws, w.toNat ≤ 32775 := by
  rw [List.eq_nil_iff_forall_not_mem]
  constructor
  · intro h w hw
    obtain ⟨k, hk⟩ := List.mem_iff_getElem?.mp hw
    exact Nat.not_lt.mp fun hbad => h (1 + k) (mem_badArgsFrom.mpr ⟨k, w, rfl, hk, hbad⟩)
  · intro h n hn
    obtain ⟨k, w, -, hw, hbad⟩ := mem_badArgsFrom.mp hn
    exact Nat.not_lt.mpr (h w (List.mem_of_getElem? hw)) hbad

/-! ### The row of an instruction, and the instruction of a row (rule R82) -/

/-- Every instruction's opcode word has a row, of its arity, which builds it again from its raw argument words. -/
theorem opRow_of_instr (i : Instr) :
    ∃ row, opRow i.opcode = some row ∧ row.arity = i.args.length ∧ (i.wf = true → row.build (i.args.map Arg.word) = i) := by
  cases i
  all_goals
    refine ⟨_, rfl, rfl, fun h => ?_⟩
    simp only [Instr.wf, Instr.args, List.all_cons, List.all_nil, Bool.and_true, Bool.and_eq_true] at h
    simp [Instr.args, argAt, toArg_word, h]

/-- The arguments a row builds are the classes of the first words, in order. -/
theorem opRow_build_args {op : Word} {row : OpRow} (h : opRow op = some row) (ws : List Word) :
    (row.build ws).args = (List.range row.arity).map (argAt ws) := by
  unfold opRow at h
  split at h <;> cases h
  all_goals rfl

/-- The instruction a row builds from legal argument words encodes to the opcode word and those words. -/
theorem encode_build {op : Word} {row : OpRow} {ws : List Word} (h : opRow op = some row) (hl : ws.length = row.arity)
    (hws : ∀ w ∈ ws, w.toNat ≤ 32775) : encode (row.build ws) = op :: ws := by
  have hargs : (row.build ws).args.map Arg.word = ws := by
    refine List.ext_getElem (by simp [opRow_build_args h, hl]) fun k hk hk' => ?_
    simpa [opRow_build_args h, argAt, hk'] using word_toArg (hws _ (List.getElem_mem hk'))
  rw [encode, opRow_opcode h, hargs]

/-! ### The statements -/

/-- Settles O1: the row of the instruction's opcode reads back its arguments' words, all of them legal, and builds it again. -/
theorem decodeOfEncode : Obligations.DecodeOfEncode := by
  intro i rest hwf
  obtain ⟨row, hr, harity, hbuild⟩ := opRow_of_instr i
  have hlen : (i.args.map Arg.word).length = row.arity := by rw [List.length_map, harity]
  have hlegal : badArgs (i.args.map Arg.word) = [] := badArgs_eq_nil_iff.mpr fun w hw => by
    obtain ⟨a, ha, rfl⟩ := List.mem_map.mp hw
    exact Arg.word_le_of_wf (List.all_eq_true.mp hwf a ha)
  have hdec : decode (i.opcode :: (i.args.map Arg.word ++ rest)) = .instr (row.build (i.args.map Arg.word)) rest := by
    simp [decode, hr, ← hlen, hlegal]
  rw [encode, List.cons_append, hdec, hbuild hwf]

/-- Settles O2: what is decoded was built from legal words, and such an instruction encodes to exactly those words. -/
theorem encodeOfDecode : Obligations.EncodeOfDecode := by
  intro ws i rest h
  cases ws with
  | nil => cases h
  | cons op ws =>
    rcases decode_cases op ws with ⟨-, e⟩ | ⟨row, hr, ⟨-, e⟩ | ⟨hl, hlegal, e⟩ | ⟨-, -, e⟩⟩ <;> rw [e] at h <;> cases h
    have henc : encode (row.build (ws.take row.arity)) = op :: ws.take row.arity :=
      encode_build hr (List.length_take_of_le hl) (badArgs_eq_nil_iff.mp hlegal)
    rw [henc, List.cons_append, List.take_append_drop]

/-- Settles O3: eight closed word sequences, decoded by evaluation. -/
theorem knownWordsDecode : Obligations.KnownWordsDecode := by
  unfold Obligations.KnownWordsDecode
  decide

end Sys2Proof.Machine
end

section
/-! PROOFS. `halt` (rule R140): the flag is set, and no instruction executes after it. -/

namespace Sys2Proof.Machine

/-- Executing `halt` sets the flag. -/
@[simp] theorem exec_halt (s : State) : exec .halt s = .next { s with halted := true } := rfl

/-- A step of a Halted machine does nothing (rule R225). -/
theorem step_of_halted {s : State} (h : s.status = .halted) : step s = .next s := by
  obtain ⟨hfault, hhalted⟩ := s.status_halted_iff.mp h
  simp [step, hfault, hhalted]

/-- Settles O8: the flag alone changes, and without a fault it makes the machine Halted, whose step does nothing. -/
theorem haltStops : Obligations.HaltStops := by
  refine ⟨rfl, fun s => ⟨exec_halt s, fun hfault => ?_⟩⟩
  have hhalted : ({ s with halted := true } : State).status = .halted := (State.status_halted_iff _).mpr ⟨hfault, rfl⟩
  exact ⟨hhalted, step_of_halted hhalted⟩

end Sys2Proof.Machine
end

section
/-! PROOFS. `pop` and `ret` (rules R152, R201): the top of the stack goes to the destination or to the program counter, and on
the empty stack both take StackUnderflow. -/

namespace Sys2Proof.Machine

/-! ### The meanings, by the stack -/

/-- Nothing is taken from the empty stack. -/
theorem State.pop_of_nil {s : State} (h : s.stack = []) : s.pop = none := by simp [State.pop, h]

/-- `pop` on the empty stack takes StackUnderflow. -/
theorem exec_pop_of_nil (a : Arg) {s : State} (h : s.stack = []) :
    exec (.pop a) s = .next (raiseIn (.pop a) .stackUnderflow none s) := by
  simp only [exec, execPop, State.pop_of_nil h]

/-- `pop` stores the top of the stack in the state without it. -/
theorem exec_pop_of_append (a : Arg) {s : State} {st : List Word} {v : Word} (h : s.stack = st ++ [v]) :
    exec (.pop a) s = .next (store (.pop a) (dstTgt a) v { s with stack := st }) := by
  simp only [exec, execPop, State.pop_of_append h]

/-- `ret` on the empty stack takes StackUnderflow. -/
theorem exec_ret_of_nil {s : State} (h : s.stack = []) : exec .ret s = .next (raiseIn .ret .stackUnderflow none s) := by
  simp only [exec, execRet, State.pop_of_nil h]

/-- `ret` jumps to the top of the stack, unchecked, in the state without it. -/
theorem exec_ret_of_append {s : State} {st : List Word} {v : Word} (h : s.stack = st ++ [v]) :
    exec .ret s = .next { s with stack := st, pc := v } := by
  simp only [exec, execRet, State.pop_of_append h, State.jump]

/-! ### The statements -/

/-- Settles O12: `pop` is one store of the top of the stack, in the state whose stack is the rest. -/
theorem popTakesTop : Obligations.PopTakesTop := by
  intro a s st v ha hs
  have hencode : encode (.pop a) = [3, a.word] := rfl
  exact ⟨hencode, _, exec_pop_of_append a hs, store_wroteDest (.pop a) v { s with stack := st } ha⟩

/-- Settles O13: both raise the fault and do nothing else. -/
theorem emptyStackUnderflows : Obligations.EmptyStackUnderflows :=
  fun _ hs => ⟨fun a => exec_pop_of_nil a hs, exec_ret_of_nil hs⟩

/-- Settles O28: on a stack that is not empty `ret` is a jump to its top. -/
theorem retPopsPc : Obligations.RetPopsPc := fun _ _ _ hs => ⟨rfl, exec_ret_of_append hs⟩

/-- Writing a register the word it holds changes nothing. -/
theorem State.setReg_reg_self (s : State) (k : Fin 8) : s.setReg k (s.reg k) = s := by
  simp [State.setReg, State.reg]

/-- Settles O54: the word pushed is the top that `pop` takes, and it goes back to the register that holds it. -/
theorem pushPopRoundTrip : Obligations.PushPopRoundTrip := by
  intro k s
  refine ⟨_, exec_push (.reg k) s, ?_⟩
  rw [exec_pop_of_append (.reg k) (State.push_stack s _)]
  exact congrArg Host.Outcome.next (s.setReg_reg_self k)

/-- Settles O55: `call` pushes the address after it, which a `ret` on that stack takes off again. -/
theorem retAfterCallReturns : Obligations.RetAfterCallReturns :=
  fun a s => ⟨_, exec_call a s, rfl, fun _ hu => exec_ret_of_append hu⟩

end Sys2Proof.Machine
end

section
/-! PROOFS. `mod`, `and` and `or` (rules R182, R183, R184): the remainder and the bitwise results, reduced modulo 32768 (the
spec's decision D8), and DivideByZero for a zero divisor. -/

namespace Sys2Proof.Machine

/-! ### The words the ALU computes -/

/-- The remainder, reduced. -/
theorem aluMod_toNat (b c : Word) : (aluMod b c).toNat = (b.toNat % c.toNat) % 32768 := value_toNat _

/-- A result of the ALU, bit by bit: reducing modulo 2 ^ 15 clears bit 15 and keeps the bits below it. -/
theorem value_getLsbD (n k : Nat) : (value n).getLsbD k = (decide (k < 15) && n.testBit k) := by
  rw [← BitVec.testBit_toNat, value_toNat, show 32768 = 2 ^ 15 from rfl, Nat.testBit_mod_two_pow]

theorem aluAnd_getLsbD (b c : Word) (k : Nat) :
    (aluAnd b c).getLsbD k = (decide (k < 15) && (b.getLsbD k && c.getLsbD k)) := by
  rw [aluAnd, value_getLsbD, BitVec.testBit_toNat, BitVec.getLsbD_and]

theorem aluOr_getLsbD (b c : Word) (k : Nat) :
    (aluOr b c).getLsbD k = (decide (k < 15) && (b.getLsbD k || c.getLsbD k)) := by
  rw [aluOr, value_getLsbD, BitVec.testBit_toNat, BitVec.getLsbD_or]

/-! ### The meanings -/

/-- `mod` with a zero divisor takes DivideByZero. -/
theorem exec_mod_of_zero (a b : Arg) {c : Arg} {s : State} (h : srcVal s c = 0) :
    exec (.mod a b c) s = .next (raiseIn (.mod a b c) .divideByZero none s) := if_pos (isZero_iff.mpr h)

/-- `mod` with another divisor stores the ALU's remainder of the sources' words. -/
theorem exec_mod_of_ne_zero (a b : Arg) {c : Arg} {s : State} (h : srcVal s c ≠ 0) :
    exec (.mod a b c) s = .next (store (.mod a b c) (dstTgt a) (aluMod (srcVal s b) (srcVal s c)) s) :=
  if_neg (mt isZero_iff.mp h)

/-- Executing `and` stores the ALU's conjunction of the sources' words. -/
@[simp] theorem exec_and (a b c : Arg) (s : State) :
    exec (.and a b c) s = .next (store (.and a b c) (dstTgt a) (aluAnd (srcVal s b) (srcVal s c)) s) := rfl

/-- Executing `or` stores the ALU's disjunction of the sources' words. -/
@[simp] theorem exec_or (a b c : Arg) (s : State) :
    exec (.or a b c) s = .next (store (.or a b c) (dstTgt a) (aluOr (srcVal s b) (srcVal s c)) s) := rfl

/-! ### The statements -/

/-- Settles O20: for a divisor that is not zero `mod` is one store of the reduced remainder. -/
theorem modStoresRemainder : Obligations.ModStoresRemainder := by
  intro a b c s ha hc
  have hencode : encode (.mod a b c) = [11, a.word, b.word, c.word] := rfl
  exact ⟨hencode, _, _, exec_mod_of_ne_zero a b hc, store_wroteDest (.mod a b c) _ s ha, aluMod_toNat _ _⟩

/-- Settles O21: the test of the divisor comes first, and the fault changes nothing but the record. -/
theorem modByZeroFaults : Obligations.ModByZeroFaults := fun a b _ _ hc => exec_mod_of_zero a b hc

/-- Settles O22: `and` and `or` are one store each of a result known bit by bit. -/
theorem andOrStoreBits : Obligations.AndOrStoreBits := by
  intro a b c s ha
  have hand : encode (.and a b c) = [12, a.word, b.word, c.word] := rfl
  have hor : encode (.or a b c) = [13, a.word, b.word, c.word] := rfl
  exact ⟨hand, hor,
    ⟨_, _, exec_and a b c s, store_wroteDest (.and a b c) _ s ha, aluAnd_getLsbD _ _⟩,
    ⟨_, _, exec_or a b c s, store_wroteDest (.or a b c) _ s ha, aluOr_getLsbD _ _⟩⟩

end Sys2Proof.Machine
end

section
/-! PROOFS. `rmem` and `wmem` (rules R190, R191): a cell is read verbatim, a cell is written verbatim. -/

namespace Sys2Proof.Machine

open Claims (WroteDest)

/-! ### Reading -/

/-- `rmem` from an address of the memory stores the cell's word. -/
theorem exec_rmem_of_le (a : Arg) {b : Arg} {s : State} (h : (srcVal s b).toNat ≤ 32767) :
    exec (.rmem a b) s = .next (store (.rmem a b) (dstTgt a) (s.cell (srcVal s b).toNat) s) := by
  have hread : memRead s.mem (srcVal s b).toNat = some (s.cell (srcVal s b).toNat) :=
    memRead_eq_some.mpr ⟨Nat.lt_succ_of_le h, rfl⟩
  simp only [exec, execRmem, hread]

/-- `rmem` from another address takes AddressingError of it. -/
theorem exec_rmem_of_gt (a : Arg) {b : Arg} {s : State} (h : 32767 < (srcVal s b).toNat) :
    exec (.rmem a b) s = .next (raiseIn (.rmem a b) .addressingError (some (srcVal s b)) s) := by
  have hread : memRead s.mem (srcVal s b).toNat = none := memRead_eq_none.mpr h
  simp only [exec, execRmem, hread]

/-- Settles O24: from an address of the memory `rmem` is one store of the cell's word. -/
theorem rmemReadsCell : Obligations.RmemReadsCell := by
  intro a b s ha hb
  have hencode : encode (.rmem a b) = [15, a.word, b.word] := rfl
  exact ⟨hencode, _, exec_rmem_of_le a hb, store_wroteDest (.rmem a b) _ s ha⟩

/-- Settles O25: no cell answers the read, and the fault changes nothing but the record. -/
theorem rmemBeyondFaults : Obligations.RmemBeyondFaults := fun a _ _ hb => exec_rmem_of_gt a hb

/-! ### Writing -/

/-- Executing `wmem` writes the source's word to the cell of the write-address. -/
@[simp] theorem exec_wmem (a b : Arg) (s : State) :
    exec (.wmem a b) s = .next (memWrite (.wmem a b) (waddr a) (srcVal s b) s) := rfl

/-- A write inside the memory writes that cell and nothing else. -/
theorem memWrite_wroteDest {addr : Word} (i : Instr) (v : Word) (s : State) (h : addr.toNat < Config.memWords) :
    WroteDest (.lit addr) v s (memWrite i addr v s) := by
  rw [memWrite_of_lt i v s h]
  exact memSet_wroteDest addr v s

/-- The write-address of a well-formed operand lies in the memory: a literal does, and so does a register's index. -/
theorem waddr_lt {a : Arg} (h : a.wf = true) : (waddr a).toNat < Config.memWords := by
  cases a with
  | lit w => exact Arg.wf_lit.mp h
  | reg k =>
    have hindex : (BitVec.ofNat 16 k.val).toNat = k.val := Nat.mod_eq_of_lt (by omega)
    rw [waddr, hindex]
    exact Nat.lt_trans k.isLt (by decide)

/-- Settles O26: `wmem` is one write at the write-address, which is the literal or the register's index. -/
theorem wmemWritesCell : Obligations.WmemWritesCell := by
  intro a b s ha
  have hencode : encode (.wmem a b) = [16, a.word, b.word] := rfl
  have hwrite := memWrite_wroteDest (.wmem a b) (srcVal s b) s (waddr_lt ha)
  refine ⟨hencode, _, exec_wmem a b s, fun w hw => ?_, fun k hk => ?_⟩
  · subst hw
    exact hwrite
  · subst hk
    exact hwrite

end Sys2Proof.Machine
end

section
/-! PROOFS. `in` (rules R211 to R214): it reads the host's next line into consecutive cells, waits for one, or overruns. -/

namespace Sys2Proof.Machine

open Claims (SameButMemory)

/-! ### The meaning, by the line that stands ready -/

/-- Executing `in` with a literal awaits a line. -/
@[simp] theorem exec_inp_lit (a : Word) (s : State) : exec (.inp (.lit a)) s = .next (awaitLine a s) := rfl

/-- With no line ready the machine waits. -/
theorem awaitLine_of_nil (a : Word) {s : State} (h : s.lines = []) : awaitLine a s = { s with waiting := some a } := by
  simp only [awaitLine, h]

/-- The first line ready is the one that is taken. -/
theorem awaitLine_of_cons (a : Word) {s : State} {line : List Word} {rest : List (List Word)} (h : s.lines = line :: rest) :
    awaitLine a s = takeLine a line { s with lines := rest, waiting := none } := by
  simp only [awaitLine, h]

/-- A line that fits is stored. -/
theorem takeLine_of_fits {a : Word} {line : List Word} (s : State) (h : a.toNat + line.length ≤ 32768) :
    takeLine a line s = { s with mem := memSetAll s.mem a.toNat line } := if_pos (.inr h)

/-- A line that does not fit takes AddressingError of the first address above the memory. -/
theorem takeLine_of_overruns {a : Word} {line : List Word} (s : State) (ha : a.toNat ≤ 32767)
    (h : 32768 < a.toNat + line.length) :
    takeLine a line s = raiseIn (.inp (.lit a)) .addressingError (some 32768)
      { s with mem := overrunFill s.draws s.mem a.toNat line, draws := s.draws + 1 } := by
  have hbeyond : firstBeyond a = 32768 := if_pos (Nat.lt_succ_of_le ha)
  have hfits : ¬ (line.length = 0 ∨ a.toNat + line.length ≤ Config.memWords) := by
    simp only [Config.memWords]
    omega
  rw [takeLine, if_neg hfits, hbeyond]

/-! ### The statements -/

/-- Settles O30: the line is the one taken, it fits, and a run of writes is known cell by cell. -/
theorem inStoresLine : Obligations.InStoresLine := by
  intro a s line rest _ hlines hfits
  have hexec : exec (.inp (.lit a)) s =
      .next { s with lines := rest, waiting := none, mem := memSetAll s.mem a.toNat line } := by
    rw [exec_inp_lit, awaitLine_of_cons a hlines, takeLine_of_fits _ hfits]
  refine ⟨rfl, _, hexec, ⟨fun _ => rfl, rfl, rfl, rfl, rfl, rfl⟩, rfl, rfl, rfl, rfl, fun n hn hn' => ?_, fun n hn => ?_⟩
  · have hin : a.toNat ≤ n ∧ n - a.toNat < line.length := ⟨hn, by omega⟩
    rw [State.cell, memGet_memSetAll, dif_pos hin, List.getD_eq_getElem]
  · have hout : ¬ (a.toNat ≤ n ∧ n - a.toNat < line.length) := by omega
    rw [State.cell, memGet_memSetAll, dif_neg hout, State.cell]

/-- A Running machine whose `in` waits goes on waiting or takes its line. -/
theorem step_of_waiting {s : State} {a : Word} (hrun : s.status = .running) (hw : s.waiting = some a) :
    step s = .next (awaitLine a s) := by
  obtain ⟨hfault, hhalted⟩ := s.status_running_iff.mp hrun
  simp [step, hfault, hhalted, hw]

/-- Whether an `in` waited before does not matter once a line is ready. -/
theorem awaitLine_not_waiting (a : Word) {s : State} {line : List Word} {rest : List (List Word)}
    (h : s.lines = line :: rest) : awaitLine a { s with waiting := none } = awaitLine a s := by
  rw [awaitLine_of_cons a h, awaitLine_of_cons (s := { s with waiting := none }) a h]

/-- Settles O31: a waiting step awaits the line as the `in` itself does, and with a line ready the wait leaves no trace. -/
theorem inWaitsForLine : Obligations.InWaitsForLine := by
  have resumes (a : Word) (s : State) (line : List Word) (rest : List (List Word)) (hrun : s.status = .running)
      (hw : s.waiting = some a) (hlines : s.lines = line :: rest) :
      step s = exec (.inp (.lit a)) { s with waiting := none } := by
    rw [step_of_waiting hrun hw, exec_inp_lit, awaitLine_not_waiting a hlines]
  refine ⟨fun a s hlines => ?_, fun a s hrun hw hlines => ?_, fun a s line hrun hw => ?_, resumes⟩
  · rw [exec_inp_lit, awaitLine_of_nil a hlines]
  · rw [step_of_waiting hrun hw, awaitLine_of_nil a hlines, ← hw]
  · have hready : s.lines ++ [line] ≠ [] := List.append_ne_nil_of_right_ne_nil s.lines (List.cons_ne_nil line [])
    obtain ⟨first, rest, hfirst⟩ := List.exists_cons_of_ne_nil hready
    exact resumes a (supplyLine line s) first rest hrun hw hfirst

/-- Settles O32: the line is the one taken, it overruns, and what the free values can leave in each cell is known. -/
theorem inOverrunFaults : Obligations.InOverrunFaults := by
  intro a s line rest ha hlines hover
  have hexec : exec (.inp (.lit a)) s = .next (raiseIn (.inp (.lit a)) .addressingError (some 32768)
      { s with lines := rest, waiting := none, mem := overrunFill s.draws s.mem a.toNat line, draws := s.draws + 1 }) := by
    rw [exec_inp_lit, awaitLine_of_cons a hlines, takeLine_of_overruns _ ha hover]
  have hcell := memGet_overrunFill s.draws line s.mem a.toNat
  refine ⟨_, hexec, ⟨fun _ => rfl, rfl, rfl, rfl, rfl, rfl⟩, rfl, rfl, rfl, fun n hn => ?_, fun n _ _ => ?_⟩
  · rcases hcell n with hkept | ⟨⟨hle, -⟩, hlt, -⟩
    · exact hkept
    · simp only [Config.memWords] at hlt
      omega
  · rcases hcell n with hkept | ⟨⟨hle, hlen⟩, -, hnew⟩
    · exact .inl hkept
    · exact .inr (hnew.trans (List.getD_eq_getElem _ _ hlen).symm)

/-- Settles O33: the register form is refused before anything else. -/
theorem inRegisterRefused : Obligations.InRegisterRefused := fun _ _ => ⟨rfl, rfl⟩

end Sys2Proof.Machine
end

section
/-! PROOFS. The common step (40_step.md section 1): what the fetch reads, what the step does with it, and the faults of the fetch
(60_exceptions.md). -/

namespace Sys2Proof.Machine

open Claims (Fetches StandsAtPc)

/-! ### The step, by the machine's condition -/

/-- A machine that fetches has no fault, is not halted, and no `in` of it waits. -/
theorem fetches_iff {s : State} : Fetches s ↔ s.fault = none ∧ s.halted = false ∧ s.waiting = none := by
  rw [Fetches, State.status_running_iff, and_assoc]

/-- The step of a Faulted machine answers the recorded cause. -/
theorem step_of_fault {s : State} {r : FaultRecord} (h : s.fault = some r) : step s = .fault r.cause := by
  simp only [step, h]

/-- A rejected fetch is the whole step. -/
theorem step_of_reject {s : State} {e : DecodeError} (hs : Fetches s) (hd : decodeAt s = .reject e) :
    step s = .next (fetchFault e s) := by
  obtain ⟨hfault, hhalted, hw⟩ := fetches_iff.mp hs
  simp [step, hfault, hhalted, hw, fetch, hd]

/-- A decoded instruction is executed with `pc` past its last word. -/
theorem step_of_instr {s : State} {i : Instr} {rest : List Word} (hs : Fetches s) (hd : decodeAt s = .instr i rest) :
    step s = exec i (s.past i) := by
  obtain ⟨hfault, hhalted, hw⟩ := fetches_iff.mp hs
  simp [step, hfault, hhalted, hw, fetch, hd]

/-- Settles O34: what is decoded is well formed, and it is what the step executes. -/
theorem stepRunsDecoded : Obligations.StepRunsDecoded := fun _ _ _ hs hd => ⟨decode_wf hd, step_of_instr hs hd⟩

/-- Settles O44: the two conditions are tested before anything is fetched. -/
theorem terminalStatus : Obligations.TerminalStatus := by
  refine fun s => ⟨step_of_halted, fun h => ?_⟩
  obtain ⟨r, hr⟩ := Option.isSome_iff_exists.mp (s.status_faulted_iff.mp h)
  exact ⟨r, hr, step_of_fault hr⟩

/-! ### The words a fetch reads -/

/-- The words read are those of the cells that exist, in order. -/
theorem fetchWords_eq_map (m : Mem) (n a : Nat) :
    fetchWords m n a = (List.range (min n (Config.memWords - a))).map fun k => memGet m (a + k) := by
  refine List.ext_getElem (by simp [fetchWords_length]) fun k hk _ => ?_
  rw [fetchWords_getElem, List.getElem_map, List.getElem_range]

/-- Above the memory nothing is read. -/
theorem fetchWords_of_ge (m : Mem) (n : Nat) {a : Nat} (h : Config.memWords ≤ a) : fetchWords m n a = [] := by
  rw [fetchWords_eq_map, Nat.sub_eq_zero_of_le h, Nat.min_zero, List.range_zero, List.map_nil]

/-- Inside the memory the first word read is the cell's. -/
theorem fetchWords_of_lt (m : Mem) (n : Nat) {a : Nat} (h : a < Config.memWords) :
    fetchWords m (n + 1) a = memGet m a :: fetchWords m n (a + 1) := by
  simp only [fetchWords, memRead_eq_some.mpr ⟨h, rfl⟩]

/-- At an address of the memory the decoder reads the opcode word there and up to three words after it. -/
theorem decodeAt_of_le {s : State} (h : s.pc.toNat ≤ 32767) :
    decodeAt s = decode (s.cell s.pc.toNat :: fetchWords s.mem 3 (s.pc.toNat + 1)) :=
  congrArg decode (fetchWords_of_lt s.mem 3 (Nat.lt_succ_of_le h))

/-- Settles O36: the words read are a function of `pc` and the cells that exist there. -/
theorem fetchReadsCellsAtPc : Obligations.FetchReadsCellsAtPc := by
  intro s t hpc hcell
  have hwords : fetchWords s.mem 4 s.pc.toNat = fetchWords t.mem 4 t.pc.toNat := by
    rw [← hpc, fetchWords_eq_map, fetchWords_eq_map]
    refine List.map_congr_left fun k hk => ?_
    obtain ⟨h4, hmem⟩ := lt_min_iff.mp (List.mem_range.mp hk)
    exact hcell k h4 (Nat.add_lt_of_lt_sub' hmem)
  exact congrArg decode hwords

/-- An instruction has at most three arguments. -/
theorem args_length_le (i : Instr) : i.args.length ≤ 3 := by
  obtain ⟨row, hr, harity, -⟩ := opRow_of_instr i
  exact harity ▸ (opRow_build hr []).2.2

/-- An instruction has one opcode word and its arguments' words. -/
theorem encode_length (i : Instr) : (encode i).length = i.len := by
  rw [encode, List.length_cons, List.length_map, Instr.len, Nat.add_comm]

/-- Where the encoding of an instruction stands, the words read begin with it. -/
theorem fetchWords_of_standsAtPc {i : Instr} {s : State} (h : StandsAtPc i s) :
    ∃ rest, fetchWords s.mem 4 s.pc.toNat = encode i ++ rest := by
  have hargs := args_length_le i
  have hlen : (encode i).length = 1 + i.args.length := encode_length i
  obtain ⟨hlast, -⟩ := h i.args.length (by omega)
  have hread : (fetchWords s.mem 4 s.pc.toNat).length = min 4 (32768 - s.pc.toNat) := fetchWords_length ..
  have htake : (fetchWords s.mem 4 s.pc.toNat).take (encode i).length = encode i := by
    refine List.ext_getElem (by rw [List.length_take]; omega) fun k _ hk => ?_
    rw [List.getElem_take, fetchWords_getElem]
    exact (h k hk).2
  exact ⟨_, (htake ▸ List.take_append_drop ..).symm⟩

/-- Settles O35: the words read begin with the encoding, which decodes to the instruction. -/
theorem stepRunsEncodedWords : Obligations.StepRunsEncodedWords := by
  intro s i hs hwf hstands
  obtain ⟨rest, hread⟩ := fetchWords_of_standsAtPc hstands
  have hd : decodeAt s = .instr i rest := (congrArg decode hread).trans (decodeOfEncode i rest hwf)
  exact step_of_instr hs hd

/-! ### The faults of the fetch -/

/-- Settles O37: no word is read at such an address, and the rejection changes nothing but the record. -/
theorem opcodeFetchBeyondFaults : Obligations.OpcodeFetchBeyondFaults := by
  intro s hs hpc
  have hd : decodeAt s = .reject .noOpcode := congrArg decode (fetchWords_of_ge s.mem 4 hpc)
  exact step_of_reject hs hd

/-- Settles O38: the decoder rejects the opcode word before it looks at another. -/
theorem unknownOpcodeFaults : Obligations.UnknownOpcodeFaults := by
  intro s hs hpc hop
  have hd : decodeAt s = .reject (.unknownOpcode (s.cell s.pc.toNat)) :=
    (decodeAt_of_le hpc).trans (decode_eq_unknownOpcode_iff.mpr (opRow_eq_none_iff.mpr hop))
  exact step_of_reject hs hd

/-- With fewer words than the instruction has arguments the decoder rejects, whatever the words are. -/
theorem decode_of_cutShort {i : Instr} {ws : List Word} (h : ws.length < i.args.length) :
    decode (i.opcode :: ws) = .reject (.cutShort i.opcode ws) := by
  obtain ⟨row, hr, harity, -⟩ := opRow_of_instr i
  rw [← harity] at h
  simp [decode, hr, List.take_of_length_le h.le, h]

/-- With all its argument words there, one of them illegal, the decoder rejects and names them all. -/
theorem decode_of_invalidArgument {i : Instr} {args rest : List Word} (hlen : args.length = i.args.length)
    (hbad : badArgs args ≠ []) : decode (i.opcode :: (args ++ rest)) = .reject (.invalidArgument i.opcode args) := by
  obtain ⟨row, hr, harity, -⟩ := opRow_of_instr i
  rw [← harity] at hlen
  simp [decode, hr, ← hlen, hbad]

/-- A fetch that is cut short ends with the memory. -/
theorem pc_past_cutShort {s : State} {n : Nat} (hpc : s.pc.toNat ≤ 32767) (hn : n ≤ 3)
    (h : (fetchWords s.mem 3 (s.pc.toNat + 1)).length < n) :
    s.pc + BitVec.ofNat 16 (1 + (fetchWords s.mem 3 (s.pc.toNat + 1)).length) = 32768 := by
  have hread : (fetchWords s.mem 3 (s.pc.toNat + 1)).length = min 3 (32768 - (s.pc.toNat + 1)) := fetchWords_length ..
  have hsum : s.pc.toNat + (1 + (fetchWords s.mem 3 (s.pc.toNat + 1)).length) = 32768 := by omega
  apply BitVec.eq_of_toNat_eq
  rw [BitVec.toNat_add, BitVec.toNat_ofNat, Nat.add_mod_mod, hsum]
  rfl

/-- Settles O39: the words read end with the memory, before the last argument. -/
theorem argumentFetchBeyondFaults : Obligations.ArgumentFetchBeyondFaults := by
  intro s i hs hpc hop hbeyond
  have hargs := args_length_le i
  have hcells : min 3 (Config.memWords - (s.pc.toNat + 1)) = 32767 - s.pc.toNat := by
    simp only [Config.memWords]
    omega
  have hread : fetchWords s.mem 3 (s.pc.toNat + 1) =
      (List.range (32767 - s.pc.toNat)).map fun k => s.cell (s.pc.toNat + 1 + k) := by
    rw [fetchWords_eq_map, hcells]
    rfl
  have hshort : (fetchWords s.mem 3 (s.pc.toNat + 1)).length < i.args.length := by
    rw [fetchWords_length, hcells]
    omega
  have hd := decodeAt_of_le hpc
  rw [hop, decode_of_cutShort hshort] at hd
  rw [step_of_reject hs hd, fetchFault, pc_past_cutShort hpc hargs hshort, hread]
  rfl

/-- Settles O40: the arguments' words are all read, and the decoder names the positions of those above 32775. -/
theorem invalidArgumentFaults : Obligations.InvalidArgumentFaults := by
  intro s i args hs hop hlen hmem hcell hbad
  have hargs := args_length_le i
  have hpc : s.pc.toNat ≤ 32767 := by omega
  have hread : (fetchWords s.mem 3 (s.pc.toNat + 1)).length = min 3 (32768 - (s.pc.toNat + 1)) := fetchWords_length ..
  have htake : (fetchWords s.mem 3 (s.pc.toNat + 1)).take args.length = args := by
    refine List.ext_getElem (by rw [List.length_take]; omega) fun k _ hk => ?_
    rw [List.getElem_take, fetchWords_getElem]
    exact hcell k hk
  have hnames : badArgs args ≠ [] := by
    obtain ⟨w, hw, hw'⟩ := hbad
    exact fun h => absurd hw' (Nat.not_lt.mpr (badArgs_eq_nil_iff.mp h w hw))
  have hd := decodeAt_of_le hpc
  rw [hop, ← List.take_append_drop args.length (fetchWords _ _ _), htake, decode_of_invalidArgument hlen hnames] at hd
  refine ⟨badArgs args, fun n => ?_, step_of_reject hs hd⟩
  simp only [badArgs, mem_badArgsFrom, Nat.add_comm 1]

end Sys2Proof.Machine
end

section
/-! PROOFS. Noninterference (10_state.md sections 1 and 8): what an instruction cannot read it does not depend on. Two runs are
compared, the second from a state with other registers and with other words emitted before. -/

namespace Sys2Proof.Machine

open Claims (onNext Fetches)

/-- `s` with its registers replaced by `g` of them and the words `before` emitted already: where the second run starts. -/
def State.remap (g : Vector Word 8 → Vector Word 8) (before : List Word) (s : State) : State :=
  { s with regs := g s.regs, out := before ++ s.out }

/-- Two outcomes of the same kind, the next states related by `R`. -/
inductive Alike (R : State → State → Prop) :
    Host.Outcome State Fault Refusal → Host.Outcome State Fault Refusal → Prop where
  | next {t u : State} (h : R t u) : Alike R (.next t) (.next u)
  | fault (c : Fault) : Alike R (.fault c) (.fault c)
  | refused (r : Refusal) : Alike R (.refused r) (.refused r)

section

variable (g : Vector Word 8 → Vector Word 8) (before : List Word)

/-! ### The shared operations in the second run -/

theorem memWrite_remap (i : Instr) (addr v : Word) (s : State) :
    memWrite i addr v (s.remap g before) = (memWrite i addr v s).remap g before := by
  unfold memWrite
  rw [apply_ite (State.remap g before)]
  rfl

theorem takeLine_remap (a : Word) (line : List Word) (s : State) :
    takeLine a line (s.remap g before) = (takeLine a line s).remap g before := by
  unfold takeLine
  rw [apply_ite (State.remap g before)]
  rfl

theorem awaitLine_remap (a : Word) (s : State) : awaitLine a (s.remap g before) = (awaitLine a s).remap g before := by
  cases hlines : s.lines with
  | nil =>
    rw [awaitLine_of_nil a hlines, awaitLine_of_nil a (s := s.remap g before) hlines]
    rfl
  | cons line rest =>
    rw [awaitLine_of_cons a hlines, awaitLine_of_cons a (s := s.remap g before) hlines]
    exact takeLine_remap g before a line { s with lines := rest, waiting := none }

theorem State.emit_remap (s : State) (v : Word) : (s.remap g before).emit v = (s.emit v).remap g before := by
  simp [State.emit, State.remap]

theorem fetchFault_remap (e : DecodeError) (s : State) :
    fetchFault e (s.remap g before) = (fetchFault e s).remap g before := by
  cases e <;> rfl

/-! ### The registers an operation keeps -/

theorem memWrite_regs (i : Instr) (addr v : Word) (s : State) : (memWrite i addr v s).regs = s.regs := by
  rcases memWrite_cases i addr v s with ⟨-, e⟩ | ⟨-, e⟩ <;> simp [e, raiseIn]

theorem takeLine_regs (a : Word) (line : List Word) (s : State) : (takeLine a line s).regs = s.regs := by
  rcases takeLine_cases a line s with ⟨-, e⟩ | ⟨-, -, e⟩ <;> simp [e, raiseIn]

theorem awaitLine_regs (a : Word) (s : State) : (awaitLine a s).regs = s.regs := by
  rcases awaitLine_cases a s with ⟨-, e⟩ | ⟨line, rest, -, e⟩ <;> simp [e, takeLine_regs]

/-! ### Executing an instruction in both runs -/

/-- An instruction whose sources resolve alike has like outcomes in the two runs. For the next states it is enough to relate what
keeps the registers to the same thing in the second run, and a store to the destination to that store in the second run. -/
theorem exec_alike {R : State → State → Prop} {i : Instr} {s : State}
    (hsrc : ∀ a ∈ i.sources, srcVal (s.remap g before) a = srcVal s a)
    (hkeep : ∀ t : State, t.regs = s.regs → R t (t.remap g before))
    (hstore : ∀ a, i.dest = some a → ∀ (v : Word) (t : State), t.regs = s.regs →
      R (store i (dstTgt a) v t) (store i (dstTgt a) v (t.remap g before))) :
    Alike R (exec i s) (exec i (s.remap g before)) := by
  cases i <;> simp only [Instr.sources, List.mem_cons, List.not_mem_nil, or_false, forall_eq_or_imp, forall_eq] at hsrc
  case set | eq | gt | add | mul | and | or | not =>
    simp only [exec_set, exec_eq, exec_gt, exec_add, exec_mul, exec_and, exec_or, exec_not, hsrc]
    exact .next (hstore _ rfl _ s rfl)
  case mod a b c =>
    obtain ⟨hb, hc⟩ := hsrc
    by_cases hz : srcVal s c = 0
    · rw [exec_mod_of_zero a b hz, exec_mod_of_zero a b (hc.trans hz)]
      exact .next (hkeep _ rfl)
    · rw [exec_mod_of_ne_zero a b hz, exec_mod_of_ne_zero a b (hc ▸ hz), hb, hc]
      exact .next (hstore a rfl _ s rfl)
  case rmem a b =>
    by_cases hlt : 32767 < (srcVal s b).toNat
    · rw [exec_rmem_of_gt a hlt, exec_rmem_of_gt a (hsrc ▸ hlt), hsrc]
      exact .next (hkeep _ rfl)
    · rw [exec_rmem_of_le a (Nat.not_lt.mp hlt), exec_rmem_of_le a (hsrc ▸ Nat.not_lt.mp hlt), hsrc]
      exact .next (hstore a rfl _ s rfl)
  case pop a =>
    obtain ⟨hs, -⟩ | ⟨st, v, hs, -⟩ := s.pop_cases
    · rw [exec_pop_of_nil a hs, exec_pop_of_nil a (s := s.remap g before) hs]
      exact .next (hkeep _ rfl)
    · rw [exec_pop_of_append a hs, exec_pop_of_append a (s := s.remap g before) hs]
      exact .next (hstore a rfl v { s with stack := st } rfl)
  case ret =>
    obtain ⟨hs, -⟩ | ⟨st, v, hs, -⟩ := s.pop_cases
    · rw [exec_ret_of_nil hs, exec_ret_of_nil (s := s.remap g before) hs]
      exact .next (hkeep _ rfl)
    · rw [exec_ret_of_append hs, exec_ret_of_append (s := s.remap g before) hs]
      exact .next (hkeep { s with stack := st, pc := v } rfl)
  case wmem a b =>
    rw [exec_wmem, exec_wmem, hsrc, memWrite_remap]
    exact .next (hkeep _ (memWrite_regs ..))
  case inp a =>
    cases a with
    | lit w =>
      rw [exec_inp_lit, exec_inp_lit, awaitLine_remap]
      exact .next (hkeep _ (awaitLine_regs w s))
    | reg k => exact .refused _
  case out a =>
    rw [exec_out, exec_out, hsrc, State.emit_remap]
    exact .next (hkeep _ rfl)
  case jnz a b | jez a b =>
    obtain ⟨ha, hb⟩ := hsrc
    simp only [exec_jnz, exec_jez, ha, hb]
    split
    · exact .next (hkeep { s with pc := srcVal s b } rfl)
    · exact .next (hkeep s rfl)
  case push a =>
    rw [exec_push, exec_push, hsrc]
    exact .next (hkeep (s.push (srcVal s a)) rfl)
  case call a =>
    rw [exec_call, exec_call, hsrc]
    exact .next (hkeep { s with stack := s.stack ++ [s.pc], pc := srcVal s a } rfl)
  case jmp a =>
    rw [exec_jmp, exec_jmp, hsrc]
    exact .next (hkeep { s with pc := srcVal s a } rfl)
  case halt => exact .next (hkeep { s with halted := true } rfl)
  case noop => exact .next (hkeep s rfl)

end

/-! ### A register that is no source -/

/-- Writing one register is such a change of the registers, with nothing emitted before. -/
theorem State.remap_set (s : State) (k : Fin 8) (v : Word) : s.remap (·.set k.val v) [] = s.setReg k v := rfl

/-- A source operand that does not name the register resolves alike. -/
theorem srcVal_setReg {k : Fin 8} {a : Arg} (h : a ≠ .reg k) (s : State) (v : Word) :
    srcVal (s.setReg k v) a = srcVal s a := by
  cases a with
  | lit w => rfl
  | reg j =>
    have hj : j ≠ k := fun e => h (congrArg Arg.reg e)
    exact (State.setReg_reg s k j v).trans (if_neg hj)

/-- Of two writes to one register the second stands. -/
theorem State.setReg_setReg_same (s : State) (k : Fin 8) (v w : Word) : (s.setReg k v).setReg k w = s.setReg k w := by
  simp [State.setReg]

/-- Writes to two registers commute. -/
theorem State.setReg_comm (s : State) {j k : Fin 8} (h : j ≠ k) (v w : Word) :
    (s.setReg k v).setReg j w = (s.setReg j w).setReg k v := by
  simp [State.setReg, Vector.set_comm _ _ (Fin.val_ne_of_ne h)]

/-- How a run from `s` that ends in `t` and the run with the word `v` in register `k` that ends in `u` can differ: not at all, or
in that register alone, which each of them kept. -/
def DiffersAtMostIn (k : Fin 8) (v : Word) (s t u : State) : Prop := u = t ∨ (u = t.setReg k v ∧ t.reg k = s.reg k)

theorem differsAtMostIn_of_regs {s t : State} (k : Fin 8) (v : Word) (h : t.regs = s.regs) :
    DiffersAtMostIn k v s t (t.setReg k v) := .inr ⟨rfl, by simp only [State.reg, h]⟩

/-- A store: to the register itself the two runs write one word over what they hold there, to any other destination both do the
same beside it. -/
theorem store_differsAtMostIn {s t : State} (i : Instr) (a : Arg) (w : Word) (k : Fin 8) (v : Word) (h : t.regs = s.regs) :
    DiffersAtMostIn k v s (store i (dstTgt a) w t) (store i (dstTgt a) w (t.setReg k v)) := by
  cases a with
  | lit addr =>
    change DiffersAtMostIn k v s (memWrite i addr w t) (memWrite i addr w (t.setReg k v))
    rw [← t.remap_set, memWrite_remap]
    exact differsAtMostIn_of_regs k v ((memWrite_regs i addr w t).trans h)
  | reg j =>
    by_cases hj : j = k
    · subst hj
      exact .inl (t.setReg_setReg_same j v w)
    · have hkept : (t.setReg j w).reg k = t.reg k := (State.setReg_reg t j k w).trans (if_neg (Ne.symm hj))
      have hregs : t.reg k = s.reg k := by simp only [State.reg, h]
      exact .inr ⟨t.setReg_comm hj v w, hkept.trans hregs⟩

/-- Settles O48: by the comparison of the two runs, whose next states differ at most in the register, where each kept its word. -/
theorem unnamedRegisterUnread : Obligations.UnnamedRegisterUnread := by
  intro i s t k v hk h
  have halike : Alike (DiffersAtMostIn k v s) (exec i s) (exec i (s.setReg k v)) :=
    exec_alike (·.set k.val v) []
      (fun a ha => srcVal_setReg (ne_of_mem_of_not_mem ha hk) s v)
      (fun t ht => differsAtMostIn_of_regs k v ht)
      (fun a _ w t ht => store_differsAtMostIn i a w k v ht)
  rw [h] at halike
  generalize exec i (s.setReg k v) = o at halike ⊢
  obtain ⟨hdiff⟩ := halike
  obtain rfl | ⟨rfl, hkept⟩ := hdiff
  · exact ⟨_, rfl, fun _ _ => rfl, .inl rfl, rfl, rfl, rfl, rfl, rfl, rfl, rfl, rfl, rfl, rfl⟩
  · have hother (j : Fin 8) (hj : j ≠ k) : (t.setReg k v).reg j = t.reg j := (State.setReg_reg t k j v).trans (if_neg hj)
    have hself : (t.setReg k v).reg k = v := (State.setReg_reg t k k v).trans (if_pos rfl)
    exact ⟨_, rfl, hother, .inr ⟨hself, hkept⟩, rfl, rfl, rfl, rfl, rfl, rfl, rfl, rfl, rfl, rfl⟩

/-! ### The output stream -/

/-- Outcomes whose next states differ in the words emitted before alone. -/
theorem eq_onNext_of_alike {f : State → State} {o o' : Host.Outcome State Fault Refusal}
    (h : Alike (fun t u => u = f t) o o') : o' = onNext f o := by
  cases h with
  | next h => rw [h, onNext]
  | fault c => rfl
  | refused r => rfl

/-- Executing an instruction after other words were emitted. -/
theorem exec_remap_out (i : Instr) (before : List Word) (s : State) :
    exec i (s.remap id before) = onNext (State.remap id before) (exec i s) := by
  refine eq_onNext_of_alike (exec_alike id before (fun a _ => srcVal_congr rfl a) (fun _ _ => rfl) fun a _ v t _ => ?_)
  cases a with
  | lit w => exact memWrite_remap id before i w v t
  | reg k => rfl

/-- Settles O52: the machine's condition and the words at `pc` decide what the step does, and each of the things it can do is
done alike after other words were emitted. -/
theorem outputNeverReadBack : Obligations.OutputNeverReadBack := by
  intro s before
  change step (s.remap id before) = onNext (State.remap id before) (step s)
  cases hstatus : s.status with
  | faulted =>
    obtain ⟨r, hr⟩ := Option.isSome_iff_exists.mp (s.status_faulted_iff.mp hstatus)
    rw [step_of_fault hr, step_of_fault (s := s.remap id before) hr, onNext]
  | halted => rw [step_of_halted hstatus, step_of_halted (s := s.remap id before) hstatus, onNext]
  | running =>
    cases hw : s.waiting with
    | some a =>
      rw [step_of_waiting hstatus hw, step_of_waiting (s := s.remap id before) hstatus hw, awaitLine_remap, onNext]
    | none =>
      have hs : Fetches s := ⟨hstatus, hw⟩
      have hs' : Fetches (s.remap id before) := ⟨hstatus, hw⟩
      cases hd : decodeAt s with
      | reject e => rw [step_of_reject hs hd, step_of_reject hs' hd, fetchFault_remap, onNext]
      | instr i rest =>
        rw [step_of_instr hs hd, step_of_instr hs' hd]
        exact exec_remap_out i before (s.past i)

end Sys2Proof.Machine
end

section
/-! PROOFS. Frames: what executing an instruction can change, register by register, cell by cell, and in the stack and the ports
(10_state.md, 20_memory.md section 8, 50_interfaces.md). -/

namespace Sys2Proof.Machine

/-! ### Everything the shared operations can change -/

/-- A write of memory can change the memory and the fault record alone. -/
theorem memWrite_frame (i : Instr) (addr v : Word) (s : State) :
    ∃ mem fault, memWrite i addr v s = { s with mem := mem, fault := fault } := by
  rcases memWrite_cases i addr v s with ⟨-, e⟩ | ⟨-, e⟩
  · exact ⟨_, s.fault, e⟩
  · exact ⟨s.mem, _, e⟩

/-- A store can change the registers, the memory and the fault record alone. -/
theorem store_frame (i : Instr) (a : Arg) (v : Word) (s : State) :
    ∃ regs mem fault, store i (dstTgt a) v s = { s with regs := regs, mem := mem, fault := fault } := by
  cases a with
  | lit w => exact ⟨s.regs, memWrite_frame i w v s⟩
  | reg k => exact ⟨_, s.mem, s.fault, rfl⟩

/-- Awaiting a line can change the memory, the fault record, the lines, the wait and the draws alone. -/
theorem awaitLine_frame (a : Word) (s : State) :
    ∃ mem fault lines waiting draws, awaitLine a s =
      { s with mem := mem, fault := fault, lines := lines, waiting := waiting, draws := draws } := by
  obtain ⟨-, e⟩ | ⟨line, rest, -, e⟩ := awaitLine_cases a s
  · exact ⟨s.mem, s.fault, s.lines, _, s.draws, e⟩
  · obtain ⟨-, e'⟩ | ⟨-, -, e'⟩ := takeLine_cases a line { s with lines := rest, waiting := none }
    · exact ⟨_, s.fault, rest, none, s.draws, e.trans e'⟩
    · exact ⟨_, _, rest, none, _, e.trans e'⟩

/-! ### Registers and cells -/

/-- A store changes a register only if the destination names it. -/
theorem store_reg (i : Instr) (a : Arg) (v : Word) (s : State) (j : Fin 8) :
    (store i (dstTgt a) v s).reg j = s.reg j ∨ a = .reg j := by
  cases a with
  | lit w => exact .inl (congrArg (·[j.val]) (memWrite_regs i w v s))
  | reg k =>
    by_cases hj : j = k
    · exact .inr (hj ▸ rfl)
    · exact .inl ((State.setReg_reg s k j v).trans (if_neg hj))

/-- A write of memory changes no other cell. -/
theorem memWrite_cell (i : Instr) (addr v : Word) (s : State) (n : Nat) :
    (memWrite i addr v s).cell n = s.cell n ∨ n = addr.toNat := by
  by_cases hn : n = addr.toNat
  · exact .inr hn
  · obtain ⟨-, e⟩ | ⟨-, e⟩ := memWrite_cases i addr v s
    · exact .inl (e ▸ (memGet_memSet s.mem addr.toNat n v).trans (if_neg hn))
    · exact .inl (e ▸ rfl)

/-- A store changes a cell only if the destination is its address. -/
theorem store_cell (i : Instr) (a : Arg) (v : Word) (s : State) (n : Nat) :
    (store i (dstTgt a) v s).cell n = s.cell n ∨ ∃ w, a = .lit w ∧ n = w.toNat := by
  cases a with
  | lit w => exact (memWrite_cell i w v s n).imp_right fun hn => ⟨w, rfl, hn⟩
  | reg k => exact .inl rfl

/-- A line changes only cells of the memory that lie where it is read to. -/
theorem takeLine_cell (a : Word) (line : List Word) (s : State) (n : Nat) :
    (takeLine a line s).cell n = s.cell n ∨ (a.toNat ≤ n ∧ n < a.toNat + line.length ∧ n < 32768) := by
  obtain ⟨hfits, e⟩ | ⟨-, -, e⟩ := takeLine_cases a line s
  · by_cases hn : a.toNat ≤ n ∧ n - a.toNat < line.length
    · simp only [Config.memWords] at hfits
      exact .inr (by omega)
    · exact .inl (e ▸ (memGet_memSetAll line s.mem a.toNat n).trans (dif_neg hn))
  · obtain hkept | ⟨⟨hle, hlt⟩, hmem, -⟩ := memGet_overrunFill s.draws line s.mem a.toNat n
    · exact .inl (e ▸ hkept)
    · exact .inr ⟨hle, by omega, hmem⟩

/-- Awaiting a line changes only cells where a line that stands ready is read to. -/
theorem awaitLine_cell (a : Word) (s : State) (n : Nat) :
    (awaitLine a s).cell n = s.cell n ∨
      ∃ line rest, s.lines = line :: rest ∧ a.toNat ≤ n ∧ n < a.toNat + line.length ∧ n < 32768 := by
  obtain ⟨-, e⟩ | ⟨line, rest, hlines, e⟩ := awaitLine_cases a s
  · exact .inl (e ▸ rfl)
  · rw [e]
    exact (takeLine_cell a line _ n).imp_right fun h => ⟨line, rest, hlines, h⟩

/-- Awaiting a line takes the first one or none. -/
theorem awaitLine_lines (a : Word) (s : State) :
    (awaitLine a s).lines = s.lines ∨ ∃ line, s.lines = line :: (awaitLine a s).lines := by
  obtain ⟨-, e⟩ | ⟨line, rest, hlines, e⟩ := awaitLine_cases a s
  · exact .inl (e ▸ rfl)
  · have hrest : (awaitLine a s).lines = rest := by
      obtain ⟨-, e'⟩ | ⟨-, -, e'⟩ := takeLine_cases a line { s with lines := rest, waiting := none } <;> rw [e, e']
      rfl
    exact .inr ⟨line, hrest.symm ▸ hlines⟩

/-! ### The statements -/

/-- Settles O47: of the operations an instruction is made of only a store writes a register, and only the one its destination
names. -/
theorem registerWrittenOnlyAsDest : Obligations.RegisterWrittenOnlyAsDest := by
  intro i s t j h hne
  cases exec_did h with
  | stored i a v hi => exact hi.trans (congrArg some ((store_reg i a v s j).resolve_left hne))
  | popped a v st => exact congrArg some ((store_reg (.pop a) a v { s with stack := st } j).resolve_left hne)
  | wrote a b => exact absurd (congrArg (·[j.val]) (memWrite_regs ..)) hne
  | awaited w => exact absurd (congrArg (·[j.val]) (awaitLine_regs w s)) hne
  | _ => exact absurd rfl hne

/-- Settles O49: of the operations an instruction is made of only a store, the write of `wmem` and the line of `in` change
cells. -/
theorem memoryWritersOnly : Obligations.MemoryWritersOnly := by
  intro i s t n h hne
  cases exec_did h with
  | stored i a v hi =>
    obtain ⟨w, rfl, hn⟩ := (store_cell i a v s n).resolve_left hne
    exact .inl ⟨w, hi, hn⟩
  | popped a v st =>
    obtain ⟨w, rfl, hn⟩ := (store_cell (.pop a) a v { s with stack := st } n).resolve_left hne
    exact .inl ⟨w, rfl, hn⟩
  | wrote a b => exact .inr (.inl ⟨a, b, rfl, (memWrite_cell _ _ _ s n).resolve_left hne⟩)
  | awaited w =>
    obtain ⟨line, rest, hlines, hn⟩ := (awaitLine_cell w s n).resolve_left hne
    exact .inr (.inr ⟨w, line, rest, rfl, hlines, hn⟩)
  | _ => exact absurd rfl hne

/-- Settles O50: `push` and `call` append their word, `pop` and `ret` take the last one, nothing else reaches the stack. -/
theorem stackDiscipline : Obligations.StackDiscipline := by
  intro i s t h
  cases exec_did h with
  | pushed a => exact .inr (.inl ⟨_, rfl, a, .inl rfl⟩)
  | called a => exact .inr (.inl ⟨_, rfl, a, .inr rfl⟩)
  | returned v st hs => exact .inr (.inr ⟨v, hs, .inl rfl⟩)
  | popped a v st hs =>
    obtain ⟨_, _, _, e⟩ := store_frame (.pop a) a v { s with stack := st }
    exact .inr (.inr ⟨v, e ▸ hs, .inr ⟨a, rfl⟩⟩)
  | stored i a v =>
    obtain ⟨_, _, _, e⟩ := store_frame i a v s
    exact .inl (e ▸ rfl)
  | wrote a b =>
    obtain ⟨_, _, e⟩ := memWrite_frame (.wmem a b) (waddr a) (srcVal s b) s
    exact .inl (e ▸ rfl)
  | awaited w =>
    obtain ⟨_, _, _, _, _, e⟩ := awaitLine_frame w s
    exact .inl (e ▸ rfl)
  | _ => exact .inl rfl

/-- Settles O51: only the emission of `out` reaches the output and only the line of `in` the input. -/
theorem portsOnlyByOutAndIn : Obligations.PortsOnlyByOutAndIn := by
  intro i s t h
  cases exec_did h with
  | emitted a => exact ⟨.inr ⟨a, rfl, rfl⟩, .inl rfl, .inl rfl, rfl⟩
  | awaited w =>
    obtain ⟨_, _, _, _, _, e⟩ := awaitLine_frame w s
    exact ⟨.inl (e ▸ rfl), (awaitLine_lines w s).imp_right fun ⟨line, hline⟩ => ⟨.lit w, line, rfl, hline⟩,
      .inr ⟨.lit w, rfl⟩, e ▸ rfl⟩
  | stored i a v =>
    obtain ⟨_, _, _, e⟩ := store_frame i a v s
    rw [e]
    exact ⟨.inl rfl, .inl rfl, .inl rfl, rfl⟩
  | popped a v st =>
    obtain ⟨_, _, _, e⟩ := store_frame (.pop a) a v { s with stack := st }
    rw [e]
    exact ⟨.inl rfl, .inl rfl, .inl rfl, rfl⟩
  | wrote a b =>
    obtain ⟨_, _, e⟩ := memWrite_frame (.wmem a b) (waddr a) (srcVal s b) s
    rw [e]
    exact ⟨.inl rfl, .inl rfl, .inl rfl, rfl⟩
  | _ => exact ⟨.inl rfl, .inl rfl, .inl rfl, rfl⟩

end Sys2Proof.Machine
end

section
/-! PROOFS. How an instruction leaves `pc` (the table of rule R25, 10_state.md section 2), and what a fault records and leaves
(60_exceptions.md section 2). -/

namespace Sys2Proof.Machine

open Claims (Fetches PcRule)

/-! ### The program counter -/

/-- Whether an instruction can transfer control. -/
def transfers : Instr → Bool
  | .jmp _ | .jnz _ _ | .jez _ _ | .call _ | .ret => true
  | _ => false

/-- Executing an instruction that cannot transfer control keeps `pc`, which the fetches have advanced. -/
theorem exec_pc_of_not_transfers {i : Instr} {s t : State} (h : exec i s = .next t) (hi : transfers i = false) :
    t.pc = s.pc := by
  cases exec_did h with
  | stored i a v =>
    obtain ⟨_, _, _, e⟩ := store_frame i a v s
    rw [e]
  | popped a v st =>
    obtain ⟨_, _, _, e⟩ := store_frame (.pop a) a v { s with stack := st }
    rw [e]
  | wrote a b =>
    obtain ⟨_, _, e⟩ := memWrite_frame (.wmem a b) (waddr a) (srcVal s b) s
    rw [e]
  | awaited w =>
    obtain ⟨_, _, _, _, _, e⟩ := awaitLine_frame w s
    rw [e]
  | jumped i v hcond => rcases hcond with ⟨a, rfl⟩ | ⟨a, b, rfl | rfl⟩ <;> cases hi
  | called a => cases hi
  | returned v st => cases hi
  | _ => rfl

/-- For such an instruction the table gives the address after its last word. -/
theorem pcRule_of_not_transfers {i : Instr} {s t : State} (hi : transfers i = false) (h : t.pc = (s.past i).pc) :
    PcRule s t i := by
  cases i
  case jmp | jnz | jez | call | ret => cases hi
  all_goals exact h

/-- Settles O41: an instruction that cannot transfer control keeps the advanced `pc`, and each of the others sets it as its own
meaning says. -/
theorem pcAfterInstruction : Obligations.PcAfterInstruction := by
  intro s t i rest hs hd h hfault
  have hexec : exec i (s.past i) = .next t := (step_of_instr hs hd).symm.trans h
  have hsrc (a : Arg) : srcVal (s.past i) a = srcVal s a := srcVal_congr rfl a
  by_cases hi : transfers i = false
  · exact pcRule_of_not_transfers hi (exec_pc_of_not_transfers hexec hi)
  · cases i
    case jmp a =>
      rw [exec_jmp, hsrc] at hexec
      cases hexec
      rfl
    case jnz a b =>
      rw [exec_jnz, hsrc, hsrc] at hexec
      cases hexec
      exact apply_ite State.pc ..
    case jez a b =>
      rw [exec_jez, hsrc, hsrc] at hexec
      cases hexec
      exact apply_ite State.pc ..
    case call a =>
      rw [exec_call, hsrc] at hexec
      cases hexec
      exact ⟨rfl, rfl⟩
    case ret =>
      obtain ⟨hstack, -⟩ | ⟨st, v, hstack, -⟩ := (s.past .ret).pop_cases
      · rw [exec_ret_of_nil hstack] at hexec
        cases hexec
        cases hfault
      · rw [exec_ret_of_append hstack] at hexec
        cases hexec
        exact hstack
    all_goals exact absurd rfl hi

/-- The words of a decoded instruction all lie in the memory. -/
theorem decoded_within_memory {s : State} {i : Instr} {rest : List Word} (h : decodeAt s = .instr i rest) :
    s.pc.toNat + i.len ≤ 32768 := by
  have hwords : (encode i ++ rest).length = min 4 (32768 - s.pc.toNat) :=
    (congrArg List.length (encodeOfDecode _ i rest h)).trans (fetchWords_length ..)
  rw [List.length_append, encode_length] at hwords
  have hlen : 1 ≤ i.len := Nat.le_add_right ..
  omega

/-- Settles O42: the instruction keeps the advanced `pc`, and its words lie in the memory, so the addition does not wrap. -/
theorem pcNeverWraps : Obligations.PcNeverWraps := by
  intro s t i rest hs hd h hkind
  have hi : transfers i = false := by
    cases i
    case jmp | jnz | jez | call | ret => exact False.elim hkind
    all_goals rfl
  have hexec : exec i (s.past i) = .next t := (step_of_instr hs hd).symm.trans h
  have hin := decoded_within_memory hd
  have hnum : t.pc.toNat = s.pc.toNat + i.len := by
    rw [exec_pc_of_not_transfers hexec hi, State.past_pc, BitVec.toNat_add, BitVec.toNat_ofNat]
    omega
  exact ⟨hnum, hnum ▸ hin⟩

/-! ### Faults -/

/-- A destination operand is one of the arguments. -/
theorem mem_args_of_dest {i : Instr} {a : Arg} (h : i.dest = some a) : a ∈ i.args := by
  cases i <;> cases h <;> exact List.mem_cons_self

/-- A store to a well-formed destination takes no fault. -/
theorem store_fault_of_wf {a : Arg} (i : Instr) (v : Word) (s : State) (h : a.wf = true) :
    (store i (dstTgt a) v s).fault = s.fault := (store_wroteDest i v s h).fault

/-- The state an `in` with start address `a` is left in when the line taken, the first one ready, overruns. -/
def overrun (a : Word) (line : List Word) (rest : List (List Word)) (s : State) : State :=
  raiseIn (.inp (.lit a)) .addressingError (some (firstBeyond a))
    { s with lines := rest, waiting := none, mem := overrunFill s.draws s.mem a.toNat line, draws := s.draws + 1 }

/-- Awaiting a line takes a fault only when a line overruns. -/
theorem awaitLine_fault {a : Word} {s : State} (hs : s.fault = none) (h : (awaitLine a s).fault ≠ none) :
    ∃ line rest, s.lines = line :: rest ∧ awaitLine a s = overrun a line rest s := by
  obtain ⟨-, e⟩ | ⟨line, rest, hlines, e⟩ := awaitLine_cases a s
  · exact absurd (e ▸ hs) h
  · obtain ⟨-, e'⟩ | ⟨-, -, e'⟩ := takeLine_cases a line { s with lines := rest, waiting := none }
    · exact absurd ((e.trans e') ▸ hs) h
    · exact ⟨line, rest, hlines, e.trans e'⟩

/-- An overrunning line changes no cell below its start. -/
theorem overrun_cell_below {a : Word} {n : Nat} (h : n < a.toNat) (line : List Word) (rest : List (List Word)) (s : State) :
    (overrun a line rest s).cell n = s.cell n :=
  (memGet_overrunFill s.draws line s.mem a.toNat n).resolve_right fun ⟨⟨hle, _⟩, _⟩ => Nat.not_le.mpr h hle

/-- A well-formed instruction that takes a fault has done nothing else, but for an `in` whose line overruns. -/
theorem exec_fault {i : Instr} {s t : State} (hwf : i.wf = true) (h : exec i s = .next t) (hs : s.fault = none)
    (ht : t.fault ≠ none) :
    (∃ c addr, t = raiseIn i c addr s) ∨ ∃ a line rest, i = .inp (.lit a) ∧ t = overrun a line rest s := by
  have hargs := List.all_eq_true.mp hwf
  cases exec_did h with
  | stored i a v hi => exact absurd ((store_fault_of_wf i v s (hargs a (mem_args_of_dest hi))).trans hs) ht
  | popped a v st => exact absurd ((store_fault_of_wf (.pop a) v { s with stack := st } (hargs a List.mem_cons_self)).trans hs) ht
  | wrote a b =>
    have hlt := waddr_lt (hargs a List.mem_cons_self)
    exact absurd ((memWrite_wroteDest (.wmem a b) _ s hlt).fault.trans hs) ht
  | underflow => exact .inl ⟨_, _, rfl⟩
  | divideByZero => exact .inl ⟨_, _, rfl⟩
  | readBeyond => exact .inl ⟨_, _, rfl⟩
  | awaited w =>
    obtain ⟨line, rest, -, e⟩ := awaitLine_fault hs ht
    exact .inr ⟨w, line, rest, rfl, e⟩
  | _ => exact absurd hs ht

/-- Settles O43: a fault of the fetch records what was fetched, and a fault of the instruction is raised with `pc` past its
words, which the record holds. -/
theorem faultLeavesPc : Obligations.FaultLeavesPc := by
  intro s t r hs h hr
  obtain ⟨hfault, ⟨hhalted, -⟩ | ⟨-, a, hw, -⟩ | ⟨-, -, e, -, rfl⟩ | ⟨-, -, i, rest, -, hwf, hexec⟩⟩ := step_cases h
  · simp [(fetches_iff.mp hs).2.1] at hhalted
  · simp [hs.2] at hw
  · cases e <;> cases hr <;> exact ⟨rfl, rfl⟩
  · have hback : (s.past i).pc - BitVec.ofNat 16 i.len = s.pc := BitVec.add_sub_cancel ..
    have hlen : s.pc + BitVec.ofNat 16 (1 + (i.args.map Arg.word).length) = (s.past i).pc := by
      rw [List.length_map]
      rfl
    obtain ⟨c, addr, rfl⟩ | ⟨a, line, rest, rfl, rfl⟩ := exec_fault hwf hexec hfault (by simp [hr])
    all_goals
      cases hr
      exact ⟨hback, hlen.symm⟩

/-- Settles O46: a fault of the fetch or of the instruction is raised in a state nothing else has changed, but for an overrunning
line, whether the `in` waited for it or not. -/
theorem faultWritesNothing : Obligations.FaultWritesNothing := by
  intro s t _ h ht
  obtain ⟨hfault, ⟨-, rfl⟩ | ⟨-, a, -, rfl⟩ | ⟨-, -, e, -, rfl⟩ | ⟨-, -, i, rest, -, hwf, hexec⟩⟩ := step_cases h
  · exact absurd hfault ht
  · obtain ⟨line, rest, -, e⟩ := awaitLine_fault hfault ht
    rw [e]
    exact ⟨fun _ => rfl, rfl, rfl, rfl, rfl,
      .inr ⟨_, a, rfl, rfl, rfl, rfl, fun n hn => overrun_cell_below hn line rest s⟩⟩
  · cases e <;> exact ⟨fun _ => rfl, rfl, rfl, rfl, rfl, .inl ⟨rfl, rfl, rfl, rfl⟩⟩
  · obtain ⟨c, addr, rfl⟩ | ⟨a, line, rest, rfl, rfl⟩ := exec_fault hwf hexec hfault ht
    · exact ⟨fun _ => rfl, rfl, rfl, rfl, rfl, .inl ⟨rfl, rfl, rfl, rfl⟩⟩
    · exact ⟨fun _ => rfl, rfl, rfl, rfl, rfl,
        .inr ⟨_, a, rfl, rfl, rfl, rfl, fun n hn => overrun_cell_below hn line rest _⟩⟩

end Sys2Proof.Machine
end

section
/-! PROOFS. The results of the ALU lie below 32768 (40_step.md section 3), also for operands that do not. -/

namespace Sys2Proof.Machine

open Claims (WroteDest isAlu)

/-- A result of the ALU is a number below 32768. -/
theorem value_lt (n : Nat) : (value n).toNat < 32768 := value_toNat n ▸ Nat.mod_lt n (by decide)

/-- So is the word a comparison stores. -/
theorem truth_word_lt (p : Prop) [Decidable p] : (if p then 1 else 0 : Word).toNat < 32768 := by
  by_cases h : p <;> simp [h]

/-- An ALU instruction stores such a word to its destination, or takes a fault. -/
theorem exec_alu {i : Instr} {s t : State} (hi : isAlu i = true) (h : exec i s = .next t) (ht : t.fault = none) :
    ∃ a v, i.dest = some a ∧ v.toNat < 32768 ∧ t = store i (dstTgt a) v s := by
  cases i
  case eq | gt =>
    simp only [exec_eq, exec_gt] at h
    cases h
    exact ⟨_, _, rfl, truth_word_lt _, rfl⟩
  case add | mul | and | or | not =>
    cases h
    exact ⟨_, _, rfl, value_lt _, rfl⟩
  case mod a b c =>
    by_cases hc : srcVal s c = 0
    · rw [exec_mod_of_zero a b hc] at h
      cases h
      cases ht
    · rw [exec_mod_of_ne_zero a b hc] at h
      cases h
      exact ⟨_, _, rfl, value_lt _, rfl⟩
  all_goals cases hi

/-- A written destination holds the word. -/
theorem wroteDest_reg {k : Fin 8} {v : Word} {s t : State} (h : WroteDest (.reg k) v s t) : t.reg k = v :=
  (h.reg k).trans (if_pos rfl)

theorem wroteDest_cell {w v : Word} {s t : State} (h : WroteDest (.lit w) v s t) : t.cell w.toNat = v :=
  (h.cell w.toNat).trans (if_pos rfl)

/-- Settles O53: without a fault the instruction is one store of a result of the ALU. -/
theorem aluResultInDomain : Obligations.AluResultInDomain := by
  intro i s t hi hwf _ h ht
  obtain ⟨a, v, hdest, hv, rfl⟩ := exec_alu hi h ht
  have hwrote := store_wroteDest i v s (List.all_eq_true.mp hwf a (mem_args_of_dest hdest))
  refine ⟨fun k hk => ?_, fun w hw => ?_⟩
  · obtain rfl := Option.some.inj (hdest.symm.trans hk)
    exact (wroteDest_reg hwrote).symm ▸ hv
  · obtain rfl := Option.some.inj (hdest.symm.trans hw)
    exact (wroteDest_cell hwrote).symm ▸ hv

end Sys2Proof.Machine
end

section
/-! PROOFS. The state after reset, the load and the run (10_state.md section 7, 50_interfaces.md sections 3 and 4). -/

namespace Sys2Proof.Machine

open Claims (andThen)

/-! ### Reset and load -/

/-- Every register holds 0 after reset. -/
theorem reset_reg (j : Fin 8) : State.reset.reg j = 0 := Vector.getElem_replicate j.isLt

/-- Settles O56: every value is read off the definition. -/
theorem resetValues : Obligations.ResetValues := ⟨reset_reg, fun _ => rfl, rfl, rfl, rfl, rfl, rfl, rfl⟩

/-- The load is made in the reset state, whatever lines stand ready. -/
theorem inReset_iff {s : State} : inReset s = true ↔ s = { State.reset with lines := s.lines, draws := s.draws } :=
  decide_eq_true_iff

/-- Outside it the load is refused. -/
theorem load_of_not_inReset (image : List Word) {s : State} (h : ¬ inReset s = true) :
    load image s = .refused .loadOutsideReset := if_neg h

/-- An image placed in the empty memory stands there word by word, and the other cells are 0. -/
theorem memGet_image (image : List Word) (n : Nat) : memGet (memSetAll [] 0 image) n = image.getD n 0 := by
  rw [memGet_memSetAll, List.getD_eq_getElem?_getD]
  by_cases hn : n < image.length
  · simp [hn]
  · simp [hn, memGet]

/-- Settles O59: in the reset state the load is one run of writes, whose mark makes every later load one outside that state. -/
theorem loadPlacesImage : Obligations.LoadPlacesImage := by
  intro image lines draws
  have hreset : inReset { State.reset with lines := lines, draws := draws } = true := inReset_iff.mpr rfl
  refine ⟨fun hfits => ?_, fun hlong => ?_, fun s hs => load_of_not_inReset image (mt inReset_iff.mp hs)⟩
  · have hload : load image { State.reset with lines := lines, draws := draws } =
        .next { State.reset with lines := lines, draws := draws, mem := memSetAll [] 0 image, loaded := true } :=
      (if_pos hreset).trans (if_pos hfits)
    refine ⟨_, hload, memGet_image image, rfl, fun again => load_of_not_inReset again fun h => ?_⟩
    have hmark : true = false := congrArg State.loaded (inReset_iff.mp h)
    cases hmark
  · exact (if_pos hreset).trans (if_neg (Nat.not_le.mpr hlong))

/-! ### The run -/

/-- A run of a Running machine begins with its step. -/
theorem runFor_succ_of_running {s : State} (h : s.status = .running) (n : Nat) :
    runFor (n + 1) s = andThen (step s) (runFor n) := by
  rw [runFor, if_pos h]
  cases step s <;> rfl

/-- What follows an outcome may itself be cut in two. -/
theorem andThen_assoc (o : Host.Outcome State Fault Refusal) (f f' : State → Host.Outcome State Fault Refusal) :
    andThen (andThen o f) f' = andThen o fun t => andThen (f t) f' := by
  cases o <;> rfl

/-- A run cut in two is the run. -/
theorem runFor_add (m n : Nat) (s : State) : runFor (m + n) s = andThen (runFor m s) (runFor n) := by
  induction m generalizing s with
  | zero => rw [Nat.zero_add, runFor, andThen]
  | succ m ih =>
    by_cases h : s.status = .running
    · rw [Nat.succ_add, runFor_succ_of_running h, runFor_succ_of_running h, andThen_assoc]
      exact congrArg (andThen (step s)) (funext ih)
    · rw [runFor_of_not_running h, runFor_of_not_running h, andThen, runFor_of_not_running h]

/-- Settles O60: by the cut of a run, its first step, and the run that makes none. -/
theorem runCutAnywhere : Obligations.RunCutAnywhere := by
  refine fun m n s => ⟨runFor_add m n s, fun h => ?_, fun h => runFor_of_not_running h n⟩
  rw [runFor_succ_of_running h]
  cases step s <;> rfl

end Sys2Proof.Machine
end

section
/-! PROOFS. The invariant (`Inv`): it holds after reset, and every step keeps it. -/

namespace Sys2Proof.Machine

/-- Settles O57: the empty memory is canonical, and the other clauses have nothing to say. -/
theorem resetHasInv : Obligations.ResetHasInv := ⟨reset_mem_wf, nofun, nofun, nofun⟩

/-- A state an instruction can execute in or a fault be raised in: canonical memory, Running, and no `in` waits. -/
structure Ready (s : State) : Prop where
  mem : Memory.wf s.mem = true
  halted : s.halted = false
  fault : s.fault = none
  waiting : s.waiting = none

theorem Ready.inv {s : State} (h : Ready s) : Inv s where
  mem := h.mem
  exclusive _ := h.fault
  waits := by simp [h.waiting]
  record := by simp [h.fault]

/-! ### Faults -/

/-- Raising a fault with a record its cause allows. -/
theorem Ready.raise_inv {s : State} {r : FaultRecord} (h : Ready s) (hr : RecordOk r) : Inv (s.raise r) where
  mem := h.mem
  exclusive := by simp [h.halted]
  waits := by simp [h.waiting]
  record r' hr' := Option.some.inj hr' ▸ hr

/-- An instruction's AddressingError records an address above the memory. -/
theorem Ready.addressingError_inv {s : State} {addr : Word} (h : Ready s) (i : Instr) (ha : Config.memWords ≤ addr.toNat) :
    Inv (raiseIn i .addressingError (some addr) s) :=
  h.raise_inv ⟨by simpa using ha, by simp, by simp, by simp, by simpa using args_length_le i⟩

/-- An instruction's other faults record no address. -/
theorem Ready.raiseIn_inv {s : State} {c : Fault} (h : Ready s) (i : Instr) (hc : c = .stackUnderflow ∨ c = .divideByZero) :
    Inv (raiseIn i c none s) := by
  refine h.raise_inv ⟨?_, ?_, ?_, by simp, by simpa using args_length_le i⟩ <;> rcases hc with rfl | rfl <;> simp

/-- A fault of the fetch: the record of each rejection is one its cause allows. -/
theorem Ready.fetchFault_inv {s : State} {e : DecodeError} (h : Ready s) (hd : decodeAt s = .reject e) :
    Inv (fetchFault e s) := by
  -- the fault is raised in a state with another `pc`, which the invariant does not mention
  have hpast (pc : Word) : Ready { s with pc := pc } := ⟨h.mem, h.halted, h.fault, h.waiting⟩
  by_cases hpc : s.pc.toNat ≤ 32767
  · rw [decodeAt_of_le hpc] at hd
    obtain ⟨-, e'⟩ | ⟨row, hr, ⟨hshort, e'⟩ | ⟨-, -, e'⟩ | ⟨hl, hbad, e'⟩⟩ := decode_cases _ _ <;> rw [e'] at hd <;> cases hd
    · exact (hpast _).raise_inv ⟨by simp, by simp, by simp, by simp, by simp⟩
    · have hrow := (opRow_build hr []).2.2
      have hbeyond : Config.memWords ≤ (32768 : Word).toNat := by decide
      rw [fetchFault, pc_past_cutShort hpc hrow hshort]
      exact (hpast _).raise_inv ⟨by simp, by simp, by simp, by simp, by simp; omega⟩
    · have hrow := (opRow_build hr []).2.2
      exact (hpast _).raise_inv ⟨by simp, by simp, by simpa using hbad, by simp, by simp; omega⟩
  · have hbeyond : Config.memWords ≤ s.pc.toNat := Nat.not_le.mp hpc
    obtain rfl : e = .noOpcode := by
      rw [decodeAt, fetchWords_of_ge s.mem 4 hbeyond] at hd
      cases hd
      rfl
    exact h.raise_inv ⟨by simpa using hbeyond, by simp, by simp, by simp, by simp⟩

/-! ### The shared operations -/

theorem Ready.memWrite_inv {s : State} (h : Ready s) (i : Instr) (addr v : Word) : Inv (memWrite i addr v s) := by
  obtain ⟨hlt, e⟩ | ⟨hge, e⟩ := memWrite_cases i addr v s <;> rw [e]
  · exact Ready.inv ⟨memSet_wf v h.mem hlt, h.halted, h.fault, h.waiting⟩
  · exact h.addressingError_inv i hge

theorem Ready.store_inv {s : State} (h : Ready s) (i : Instr) (a : Arg) (v : Word) : Inv (store i (dstTgt a) v s) := by
  cases a with
  | lit w => exact h.memWrite_inv i w v
  | reg k => exact Ready.inv ⟨h.mem, h.halted, h.fault, h.waiting⟩

theorem Ready.takeLine_inv {s : State} (h : Ready s) (a : Word) (line : List Word) : Inv (takeLine a line s) := by
  obtain ⟨hfits, e⟩ | ⟨-, -, e⟩ := takeLine_cases a line s <;> rw [e]
  · exact Ready.inv ⟨memSetAll_wf h.mem hfits, h.halted, h.fault, h.waiting⟩
  · have hover : Ready { s with mem := overrunFill s.draws s.mem a.toNat line, draws := s.draws + 1 } :=
      ⟨overrunFill_wf s.draws h.mem, h.halted, h.fault, h.waiting⟩
    exact hover.addressingError_inv (.inp (.lit a)) (firstBeyond_ge a)

/-- Awaiting a line, whether an `in` waited before or not. -/
theorem awaitLine_inv {s : State} {a : Word} (hmem : Memory.wf s.mem = true) (hhalted : s.halted = false)
    (hfault : s.fault = none) (ha : a.toNat < Config.memWords) : Inv (awaitLine a s) := by
  obtain ⟨-, e⟩ | ⟨line, rest, -, e⟩ := awaitLine_cases a s <;> rw [e]
  · exact
      { mem := hmem
        exclusive := fun _ => hfault
        waits := fun b hb => ⟨hhalted, hfault, Option.some.inj hb ▸ ha⟩
        record := by simp [hfault] }
  · exact Ready.takeLine_inv (s := { s with lines := rest, waiting := none }) ⟨hmem, hhalted, hfault, rfl⟩ a line

/-! ### Executing an instruction, and the step -/

theorem Ready.exec_inv {i : Instr} {s t : State} (hs : Ready s) (hwf : i.wf = true) (h : exec i s = .next t) : Inv t := by
  cases exec_did h with
  | stored i a v => exact hs.store_inv i a v
  | popped a v st => exact Ready.store_inv (s := { s with stack := st }) ⟨hs.mem, hs.halted, hs.fault, hs.waiting⟩ _ a v
  | underflow i => exact hs.raiseIn_inv i (.inl rfl)
  | divideByZero a b c => exact hs.raiseIn_inv _ (.inr rfl)
  | readBeyond a b haddr => exact hs.addressingError_inv _ haddr
  | wrote a b => exact hs.memWrite_inv _ _ _
  | awaited w =>
    have hw : w.toNat < Config.memWords := Arg.wf_lit.mp (List.all_eq_true.mp hwf _ List.mem_cons_self)
    exact awaitLine_inv hs.mem hs.halted hs.fault hw
  | halted =>
    exact
      { mem := hs.mem
        exclusive := fun _ => hs.fault
        waits := by simp [hs.waiting]
        record := by simp [hs.fault] }
  | _ => exact Ready.inv ⟨hs.mem, hs.halted, hs.fault, hs.waiting⟩

/-- Settles O58: by what the step can do: nothing, go on awaiting a line, take a fault of the fetch, or execute a well-formed
instruction. -/
theorem stepKeepsInv : Obligations.StepKeepsInv := by
  intro s t hinv h
  obtain ⟨hfault, ⟨-, rfl⟩ | ⟨hhalted, a, hw, rfl⟩ | ⟨hhalted, hw, e, hd, rfl⟩ | ⟨hhalted, hw, i, rest, -, hwf, hexec⟩⟩ :=
    step_cases h
  · exact hinv
  · obtain ⟨-, -, ha⟩ := hinv.waits a hw
    exact awaitLine_inv hinv.mem hhalted hfault ha
  · exact Ready.fetchFault_inv ⟨hinv.mem, hhalted, hfault, hw⟩ hd
  · exact Ready.exec_inv (s := s.past i) ⟨hinv.mem, hhalted, hfault, hw⟩ hwf hexec

end Sys2Proof.Machine
end
